-- ==== Sys2Proof/Word.lean ====
section
/-! DEFINITION. The data types of 00_scope.md rules R10 to R12: the byte, the bit string, the mask and the byte
memory. Numbers of the spec that are neither bits nor bytes are natural numbers (R10), so they are `Nat`. -/

namespace Sys2Proof

/-- A byte, 0 to 255 (R10). -/
abbrev Byte := BitVec 8

/-- A bit string in stream order (R50): the first element is the first bit. -/
abbrev Bits := List Bool

/-- A boolean sequence `bool[n]`: a mask, a pixel sequence or a canvas (R12). -/
abbrev Mask := List Bool

/-- A byte buffer `byte[]` (R12, R36): byte `a` of the buffer is element `a` of the list, and nothing exists at or
beyond its length (R59). -/
abbrev Memory := List Byte

end Sys2Proof
end

