-- ==== Sys2Proof/Config.lean ====
section
/-! DEFINITION. The configuration of an instantiated block (00_scope.md R5 to R7) and the constants of the format
(R8). `WIDTH` and `HEIGHT` are open: the only thing fixed about the block after reset is that they are legal. -/

namespace Sys2Proof

/-- The two free parameters of the block (R5), fixed when it is instantiated. -/
structure Config where
  width : Nat
  height : Nat
deriving DecidableEq, Repr

/-- `TOTAL_PIXELS = WIDTH * HEIGHT` (R6). -/
def Config.totalPixels (c : Config) : Nat := c.width * c.height

/-- The legal range of the configuration, `2 <= TOTAL_PIXELS <= 2^32` (R7). -/
abbrev Config.legal (c : Config) : Prop := 2 ≤ c.totalPixels ∧ c.totalPixels ≤ 2 ^ 32

/-- `AC_BYTES` (R8): bytes of the audio-control field. -/
abbrev acBytes : Nat := 2

/-- `HEADER_BYTES` (R8). -/
abbrev headerBytes : Nat := 1

/-- `RUN_LEN_BITS` (R8): width of the length field of a run byte. -/
abbrev runLenBits : Nat := 7

/-- `MAX_RUN` (R8): the largest length of one run byte, `2^7 - 1`. -/
abbrev maxRun : Nat := 127

/-- `NUM_BITS_MIN` (R8). -/
abbrev numBitsMin : Nat := 1

/-- `NUM_BITS_MAX` (R8). -/
abbrev numBitsMax : Nat := 32

/-- `HDR_RLE` (R8, R81). -/
abbrev hdrRleByte : Byte := 0x00

/-- `HDR_POS` (R8, R81). -/
abbrev hdrPosByte : Byte := 0x80

/-- The only configuration the source prints, `width=4, height=2` (R5). -/
def Config.example4x2 : Config := ⟨4, 2⟩

/-- `WIDTH` and `HEIGHT` of the block: no source gives them (R5, D4), so they are uninterpreted (log 2). -/
opaque Config.unspecified : Nat × Nat

/-- The configuration of the block that `State.reset` describes: the unspecified pair where it is legal. An illegal
pair is no configuration of this hardware (R7); the second branch only makes the definition total (log 2). -/
def Config.block : Config :=
  if Config.legal ⟨Config.unspecified.1, Config.unspecified.2⟩ then
    ⟨Config.unspecified.1, Config.unspecified.2⟩
  else Config.example4x2

end Sys2Proof
end

