-- ==== Sys2Proof/Syntax.lean ====
section
/-! DEFINITION. The instructions: one constructor per row of spec/opcode_table.json. The first nineteen are the
operations the host can issue (30_encoding.md R90); the last seven are the elements of the stream that FD reads
(R80 to R85). -/

namespace Sys2Proof

/-- One operation of R90, or one element of a stream. -/
inductive Instr where
  /-- `BW.CLEAR`, code 0x00 (R101). -/
  | bwClear
  /-- `BW.WRITE value, num_bits`, code 0x01 (R103). -/
  | bwWrite (value numBits : Nat)
  /-- `BW.FLUSH`, code 0x02 (R105). -/
  | bwFlush
  /-- `BW.GET_BYTES`, code 0x03 (R106). -/
  | bwGetBytes
  /-- `BR.LOAD buf`, code 0x10 (R121). -/
  | brLoad (buf : Memory)
  /-- `BR.READ num_bits`, code 0x11 (R123). -/
  | brRead (numBits : Nat)
  /-- `BR.POS`, code 0x12 (R124). -/
  | brPos
  /-- `BR.CONSUMED`, code 0x13 (R125). -/
  | brConsumed
  /-- `RLEE.ENCODE mask`, code 0x20 (R141). -/
  | rleeEncode (mask : Mask)
  /-- `RLED.DECODE bytes, total_pixels`, code 0x30 (R146). -/
  | rledDecode (bytes : Memory) (totalPixels : Nat)
  /-- `POSE.ENCODE mask, index_bits`, code 0x40 (R161). -/
  | poseEncode (mask : Mask) (indexBits : Nat)
  /-- `POSD.DECODE bytes, total_pixels, index_bits`, code 0x50 (R166). -/
  | posdDecode (bytes : Memory) (totalPixels indexBits : Nat)
  /-- `FE.RESET`, code 0x60 (R181). -/
  | feReset
  /-- `FE.ENCODE_FRAME ac, pixels`, code 0x61 (R184). -/
  | feEncodeFrame (ac : Memory) (pixels : Mask)
  /-- `FD.START stream`, code 0x70 (R201). -/
  | fdStart (stream : Memory)
  /-- `FD.STEP`, code 0x71 (R204). -/
  | fdStep
  /-- `FD.RUN`, code 0x72 (R210). -/
  | fdRun
  /-- `FD.STATUS`, code 0x73 (R211). -/
  | fdStatus
  /-- `RESET`, code 0xF0 (R38, R250). -/
  | reset
  /-- `AC a b`: the two opaque audio-control bytes of a record (R80). -/
  | ac (a b : Byte)
  /-- `HDR.RLE`: a header byte with bit 7 clear; `r` is its reserved bits 6..0 (R81, R82). -/
  | hdrRle (r : BitVec 7)
  /-- `HDR.POS`: a header byte with bit 7 set; `r` is its reserved bits 6..0 (R81, R82). -/
  | hdrPos (r : BitVec 7)
  /-- `RUN v, l`: one run byte, value bit 7 and length bits 6..0 (R84). -/
  | run (v : Bool) (l : BitVec 7)
  /-- `POS.COUNT`: the count field of a positional payload, `w` bits wide (R85). -/
  | posCount (w count : Nat)
  /-- `POS.INDEX`: one index field of a positional payload, `w` bits wide (R85). -/
  | posIndex (w index : Nat)
  /-- `POS.PAD`: the bits from the last field of a positional payload to the next byte boundary (R85). -/
  | posPad (bits : Bits)
deriving DecidableEq, Repr

end Sys2Proof
end

