-- ==== Sys2Proof/WellFormed.lean ====
section
/-! DEFINITION. Which instructions the encodings of 30_encoding.md admit. An operation admits every operand: the
range checks of its own rule decide whether it is accepted, and its refusal is a result (R91). -/

namespace Sys2Proof

/-- A field of `w` bits, `1 <= w <= 32`, can hold `v` (R51, R85). -/
def fieldFits (w v : Nat) : Bool := decide (1 ≤ w ∧ w ≤ 32 ∧ v < 2 ^ w)

/-- The encoding of the instruction exists (R80 to R91). -/
def Instr.wellFormed : Instr → Bool
  | .bwClear => true
  | .bwWrite _ _ => true
  | .bwFlush => true
  | .bwGetBytes => true
  | .brLoad _ => true
  | .brRead _ => true
  | .brPos => true
  | .brConsumed => true
  | .rleeEncode _ => true
  | .rledDecode _ _ => true
  | .poseEncode _ _ => true
  | .posdDecode _ _ _ => true
  | .feReset => true
  | .feEncodeFrame _ _ => true
  | .fdStart _ => true
  | .fdStep => true
  | .fdRun => true
  | .fdStatus => true
  | .reset => true
  | .ac _ _ => true
  | .hdrRle _ => true
  | .hdrPos _ => true
  | .run _ _ => true
  | .posCount w count => fieldFits w count
  | .posIndex w index => fieldFits w index
  | .posPad bits => decide (bits.length ≤ 7)

end Sys2Proof
end

