-- ==== Sys2Proof/Decode.lean ====
section
/-! DEFINITION. Bits, bytes and fields (00_scope.md R11, 20_memory.md R50 to R53), the decoder and the encoder.

A stream element is laid out as 30_encoding.md R80 to R85 say. An operation is its code of R90 followed by its
operands; how operands cross a port is in no source (R91), so their layout here is a DESIGN CHOICE (log 3):
a natural is a sequence of bytes of one continuation bit and seven value bits, the low seven bits first, with no
superfluous last byte; a `byte[]` or `bool[]` is its length as a natural and then its elements in order. -/

namespace Sys2Proof

/-- `bits_msb(v, n)` (R11): the `n` low bits of `v`, most significant first. -/
def bitsMsb (v : Nat) : Nat → Bits
  | 0 => []
  | n + 1 => v.testBit n :: bitsMsb v n

/-- The number that grows by one bit on its low side: `2 * v + b` (R103, R123). -/
def pushLow (v : Nat) (b : Bool) : Nat := 2 * v + b.toNat

/-- `val_msb(s)` (R11). -/
def valMsb (s : Bits) : Nat := s.foldl pushLow 0

/-- The eight bits of a byte in stream order (R52). -/
def byteBits (b : Byte) : Bits := bitsMsb b.toNat 8

/-- The bit string of a byte buffer (R50). -/
def memBits (m : Memory) : Bits := m.flatMap byteBits

/-- The bytes assembled from successive groups of eight stream bits (R52). -/
def bitsToBytes : Bits → Memory
  | b7 :: b6 :: b5 :: b4 :: b3 :: b2 :: b1 :: b0 :: rest =>
    BitVec.ofNat 8 (valMsb [b7, b6, b5, b4, b3, b2, b1, b0]) :: bitsToBytes rest
  | _ => []

/-- The run byte of the run `(v, l)`: `128 * v + l` (R84). -/
def runByte (v : Bool) (l : Nat) : Byte := BitVec.ofNat 8 (128 * v.toNat + l)

/-- The value of a run byte, bit 7 (R84); the method bit of a header byte (R81). -/
def topBit (b : Byte) : Bool := b.getLsbD 7

/-- The length of a run byte, bits 6..0 (R84); the reserved bits of a header byte (R81). -/
def lowSeven (b : Byte) : BitVec 7 := b.extractLsb' 0 7

/-- What is expected at the place a fetch reads: an operation (R90), or the element of a stream that stands at
this place of a record. The place alone says which (R271). -/
inductive Slot where
  | command
  | audioControl
  | header
  | runByte
  | countField (w : Nat)
  | indexField (w : Nat)
  | padding (n : Nat)
deriving DecidableEq, Repr

/-- Why bits are no instruction. -/
inductive Reject where
  /-- The bits end inside the instruction. -/
  | truncated
  /-- The code is not in the table of R90. -/
  | unknownOperation (code : Nat)
  /-- A natural operand has a superfluous last byte (log 3). -/
  | notMinimal
deriving DecidableEq, Repr

/-- The first `n` bits and the rest. -/
def takeBits (n : Nat) (s : Bits) : Except Reject (Bits × Bits) :=
  if n ≤ s.length then .ok (s.take n, s.drop n) else .error .truncated

/-- A natural operand from the port (log 3). -/
def decodeNat : Bits → Except Reject (Nat × Bits)
  | more :: b6 :: b5 :: b4 :: b3 :: b2 :: b1 :: b0 :: rest =>
    if more then
      match decodeNat rest with
      | .error e => .error e
      | .ok (q, r) =>
        if q = 0 then .error .notMinimal else .ok (valMsb [b6, b5, b4, b3, b2, b1, b0] + 128 * q, r)
    else .ok (valMsb [b6, b5, b4, b3, b2, b1, b0], rest)
  | _ => .error .truncated

/-- A `byte[]` operand from the port (log 3). -/
def decodeBytes (s : Bits) : Except Reject (Memory × Bits) :=
  match decodeNat s with
  | .error e => .error e
  | .ok (n, r) =>
    match takeBits (8 * n) r with
    | .error e => .error e
    | .ok (body, r') => .ok (bitsToBytes body, r')

/-- A `bool[]` operand from the port (log 3). -/
def decodeMask (s : Bits) : Except Reject (Mask × Bits) :=
  match decodeNat s with
  | .error e => .error e
  | .ok (n, r) => takeBits n r

/-- The instruction `f a` where `a` is an operand read from the port. -/
def withOperand {α β : Type} (p : Bits → Except Reject (α × Bits)) (f : α → Bits → Except Reject β) (s : Bits) :
    Except Reject β :=
  match p s with
  | .error e => .error e
  | .ok (a, r) => f a r

/-- The operation with this code, its operands read from the bits after the code (R90). -/
def decodeOperation (code : Nat) (s : Bits) : Except Reject (Instr × Bits) :=
  match code with
  | 0x00 => .ok (.bwClear, s)
  | 0x01 => withOperand decodeNat (fun v => withOperand decodeNat fun n r => .ok (.bwWrite v n, r)) s
  | 0x02 => .ok (.bwFlush, s)
  | 0x03 => .ok (.bwGetBytes, s)
  | 0x10 => withOperand decodeBytes (fun b r => .ok (.brLoad b, r)) s
  | 0x11 => withOperand decodeNat (fun n r => .ok (.brRead n, r)) s
  | 0x12 => .ok (.brPos, s)
  | 0x13 => .ok (.brConsumed, s)
  | 0x20 => withOperand decodeMask (fun m r => .ok (.rleeEncode m, r)) s
  | 0x30 => withOperand decodeBytes (fun b => withOperand decodeNat fun n r => .ok (.rledDecode b n, r)) s
  | 0x40 => withOperand decodeMask (fun m => withOperand decodeNat fun w r => .ok (.poseEncode m w, r)) s
  | 0x50 => withOperand decodeBytes (fun b => withOperand decodeNat fun n => withOperand decodeNat fun w r =>
      .ok (.posdDecode b n w, r)) s
  | 0x60 => .ok (.feReset, s)
  | 0x61 => withOperand decodeBytes (fun a => withOperand decodeMask fun p r => .ok (.feEncodeFrame a p, r)) s
  | 0x70 => withOperand decodeBytes (fun b r => .ok (.fdStart b, r)) s
  | 0x71 => .ok (.fdStep, s)
  | 0x72 => .ok (.fdRun, s)
  | 0x73 => .ok (.fdStatus, s)
  | 0xF0 => .ok (.reset, s)
  | _ => .error (.unknownOperation code)

/-- The stream element whose bits, as many as the slot asks for, are `f` (R80 to R85). -/
def decodeElement (slot : Slot) (f : Bits) : Instr :=
  match slot with
  | .command => .posPad f
  | .audioControl => .ac (BitVec.ofNat 8 (valMsb (f.take 8))) (BitVec.ofNat 8 (valMsb (f.drop 8)))
  | .header => if f.headD false then .hdrPos (BitVec.ofNat 7 (valMsb f.tail)) else .hdrRle (BitVec.ofNat 7 (valMsb f.tail))
  | .runByte => .run (f.headD false) (BitVec.ofNat 7 (valMsb f.tail))
  | .countField w => .posCount w (valMsb f)
  | .indexField w => .posIndex w (valMsb f)
  | .padding _ => .posPad f

/-- How many bits the element of a slot has; an operation's code has eight (R80 to R90). -/
def Slot.width : Slot → Nat
  | .command => 8
  | .audioControl => 16
  | .header => 8
  | .runByte => 8
  | .countField w => w
  | .indexField w => w
  | .padding n => n

/-- The decoder: the instruction at the head of the bits, and the bits after it. -/
def decode (slot : Slot) (s : Bits) : Except Reject (Instr × Bits) :=
  match takeBits slot.width s with
  | .error e => .error e
  | .ok (f, r) => if slot = .command then decodeOperation (valMsb f) r else .ok (decodeElement slot f, r)

/-- A natural operand as the port carries it; `fuel` bounds the number of bytes (log 3). -/
def encodeNatFuel : Nat → Nat → Bits
  | 0, n => false :: bitsMsb n 7
  | f + 1, n => if n < 128 then false :: bitsMsb n 7 else true :: bitsMsb (n % 128) 7 ++ encodeNatFuel f (n / 128)

/-- A natural operand as the port carries it (log 3). -/
def encodeNat (n : Nat) : Bits := encodeNatFuel n n

/-- A `byte[]` operand as the port carries it (log 3). -/
def encodeBytes (b : Memory) : Bits := encodeNat b.length ++ memBits b

/-- A `bool[]` operand as the port carries it (log 3). -/
def encodeMask (m : Mask) : Bits := encodeNat m.length ++ m

/-- The operation code of R90; a stream element has none. -/
def Instr.opCode : Instr → Option Byte
  | .bwClear => some 0x00
  | .bwWrite _ _ => some 0x01
  | .bwFlush => some 0x02
  | .bwGetBytes => some 0x03
  | .brLoad _ => some 0x10
  | .brRead _ => some 0x11
  | .brPos => some 0x12
  | .brConsumed => some 0x13
  | .rleeEncode _ => some 0x20
  | .rledDecode _ _ => some 0x30
  | .poseEncode _ _ => some 0x40
  | .posdDecode _ _ _ => some 0x50
  | .feReset => some 0x60
  | .feEncodeFrame _ _ => some 0x61
  | .fdStart _ => some 0x70
  | .fdStep => some 0x71
  | .fdRun => some 0x72
  | .fdStatus => some 0x73
  | .reset => some 0xF0
  | .ac _ _ => none
  | .hdrRle _ => none
  | .hdrPos _ => none
  | .run _ _ => none
  | .posCount _ _ => none
  | .posIndex _ _ => none
  | .posPad _ => none

/-- The encoder: an operation's code and operands, or the bits of a stream element (R80 to R91, log 3). -/
def encode : Instr → Bits
  | .bwClear => byteBits 0x00
  | .bwWrite v n => byteBits 0x01 ++ (encodeNat v ++ encodeNat n)
  | .bwFlush => byteBits 0x02
  | .bwGetBytes => byteBits 0x03
  | .brLoad b => byteBits 0x10 ++ encodeBytes b
  | .brRead n => byteBits 0x11 ++ encodeNat n
  | .brPos => byteBits 0x12
  | .brConsumed => byteBits 0x13
  | .rleeEncode m => byteBits 0x20 ++ encodeMask m
  | .rledDecode b n => byteBits 0x30 ++ (encodeBytes b ++ encodeNat n)
  | .poseEncode m w => byteBits 0x40 ++ (encodeMask m ++ encodeNat w)
  | .posdDecode b n w => byteBits 0x50 ++ (encodeBytes b ++ (encodeNat n ++ encodeNat w))
  | .feReset => byteBits 0x60
  | .feEncodeFrame a p => byteBits 0x61 ++ (encodeBytes a ++ encodeMask p)
  | .fdStart b => byteBits 0x70 ++ encodeBytes b
  | .fdStep => byteBits 0x71
  | .fdRun => byteBits 0x72
  | .fdStatus => byteBits 0x73
  | .reset => byteBits 0xF0
  | .ac a b => byteBits a ++ byteBits b
  | .hdrRle r => false :: bitsMsb r.toNat 7
  | .hdrPos r => true :: bitsMsb r.toNat 7
  | .run v l => v :: bitsMsb l.toNat 7
  | .posCount w c => bitsMsb c w
  | .posIndex w x => bitsMsb x w
  | .posPad bits => bits

/-- The place an instruction is read from. -/
def Instr.slot : Instr → Slot
  | .bwClear => .command
  | .bwWrite _ _ => .command
  | .bwFlush => .command
  | .bwGetBytes => .command
  | .brLoad _ => .command
  | .brRead _ => .command
  | .brPos => .command
  | .brConsumed => .command
  | .rleeEncode _ => .command
  | .rledDecode _ _ => .command
  | .poseEncode _ _ => .command
  | .posdDecode _ _ _ => .command
  | .feReset => .command
  | .feEncodeFrame _ _ => .command
  | .fdStart _ => .command
  | .fdStep => .command
  | .fdRun => .command
  | .fdStatus => .command
  | .reset => .command
  | .ac _ _ => .audioControl
  | .hdrRle _ => .header
  | .hdrPos _ => .header
  | .run _ _ => .runByte
  | .posCount w _ => .countField w
  | .posIndex w _ => .indexField w
  | .posPad bits => .padding bits.length

/-- The bits of a table word: its bytes from the least significant up, with `zeros` bytes of operands, all zero, after
them. Inside a byte the most significant bit is first (R50). That the low byte of a two-byte word is the first byte, so
`ac[0]` of the audio-control pair, is a DESIGN CHOICE (log 24): R54 defines no byte order for the pair. -/
def wordBits (nbits w zeros : Nat) : Bits :=
  (List.range (nbits / 8)).flatMap (fun j => bitsMsb (w / 2 ^ (8 * j) % 256) 8) ++ List.replicate (8 * zeros) false

/-- The place a table word is read from: an 8-bit word that is an operation code of R90 is an operation, any other
8-bit word is a header byte, and the one row of two bytes is the audio-control field (log 14, its
byte order log 24). -/
def tableSlot (nbits w : Nat) : Slot :=
  if nbits = 16 then .audioControl
  else match decode .command (wordBits nbits w 3) with
    | .ok _ => .command
    | .error _ => .header

/-- The instruction the decoder reads from a table word. -/
def decodeTableWord (nbits w : Nat) : Option Instr :=
  match decode (tableSlot nbits w) (wordBits nbits w 3) with
  | .ok (i, _) => some i
  | .error _ => none

end Sys2Proof
end

