-- ==== Sys2Proof/Machine/State.lean ====
section
/-! DEFINITION. The state of the block (10_state.md R20 to R38), the results an operation hands to the host
(00_scope.md R13), and the reasons a step can stop. -/

namespace Sys2Proof.Machine

open Sys2Proof

/-- The five fault codes (60_exceptions.md R226). A fault is a result: the block goes on (R234). -/
inductive FaultCode where
  | numBitsRange
  | valueRange
  | writerFaulted
  | acLength
  | pixelsLength
deriving DecidableEq, Repr

/-- One decoded frame, `Frame(ac, canvas)` (45_frame_decoder.md R203). -/
structure Frame where
  ac : Memory
  canvas : Mask
deriving DecidableEq, Repr

/-- The tagged results of 00_scope.md R13. -/
inductive Result where
  | ok
  | bytes (b : Memory)
  | value (v : Nat)
  | exhausted
  | pos (byteIndex bitIndex : Nat)
  | count (k : Nat)
  | mask (m : Mask) (k : Nat)
  | overflow
  | record (b : Memory)
  | frame (f : Frame)
  | endOfStream
  | frames (fs : List Frame)
  | status (pos length : Nat) (rsvdSeen : Bool)
  | fault (code : FaultCode)
deriving DecidableEq, Repr

/-- A bit writer: BW, or a private writer (R21, R23). -/
structure Writer where
  acc : Nat
  nacc : Nat
  out : Memory
  err : Bool
deriving DecidableEq, Repr

/-- A bit reader: BR, or a private reader (R21, R25). -/
structure Reader where
  buf : Memory
  byteIndex : Nat
  bitIndex : Nat
deriving DecidableEq, Repr

/-- The frame encoder's reference frame (R28). -/
structure Encoder where
  prev : Mask
deriving DecidableEq, Repr

/-- The frame decoder (R29). -/
structure Decoder where
  stream : Memory
  pos : Nat
  canvas : Mask
  rsvdSeen : Bool
deriving DecidableEq, Repr

/-- An FD.STEP that is being run element by element, with the variables its pseudocode holds at that point
(R146, R166, R204). The model's own: an FD.STEP the host issues is one atomic operation (R14, log 8). -/
inductive Scan where
  /-- No such FD.STEP is under way: the next step takes an operation from the port. -/
  | idle
  /-- At the first byte of a record. -/
  | recordHead
  /-- `ac = [a, b]` is read, the header byte is next. -/
  | headerByte (a b : Byte)
  /-- Inside an RLE payload: the positions written so far and the run bytes read so far (R146). -/
  | runs (a b : Byte) (reserved : Bool) (written : Mask) (taken : Nat)
  /-- Before the count field of a positional payload, with the private reader (R166). -/
  | countField (a b : Byte) (reserved : Bool) (rd : Reader)
  /-- Inside a positional payload: index fields still to read and the mask so far (R166, R167). -/
  | indexFields (a b : Byte) (reserved : Bool) (rd : Reader) (left : Nat) (mask : Mask)
deriving DecidableEq, Repr

/-- The state: the four units that keep state (R23, R25, R28, R29), the block's configuration as a constant it
carries (R22, log 1), and the model's own three fields (log 3, 4, 8). -/
structure State where
  cfg : Config
  bw : Writer
  br : Reader
  fe : Encoder
  fd : Decoder
  port : Bits
  scan : Scan
  result : Option Result
deriving DecidableEq, Repr

/-- Nothing the spec gives the block stops it: a refused operand is a result (R226, R234), running out of input is
reported in-band (R59), and no stream is fatal (R221). So no step ever ends in a fault (log 22). -/
inductive Fault where
deriving DecidableEq, Repr

/-- Why a step has no meaning. -/
inductive Refusal where
  /-- Raised by an arm of `exec` that has no meaning yet; none is left. Safe. -/
  | notModelled (mnemonic : String)
  /-- Raised by `step` when the host has issued no operation: only the host initiates anything (R20). Safe (log 6). -/
  | awaitingHost
  /-- Raised by `step` when the bits at the place of the fetch are no instruction: "A code that is not in the table is
  not an operation and is refused by name" (R90), or the bits end inside an instruction. Safe (log 7). -/
  | undecodable (why : Reject)
  /-- Raised by the meaning of a stream element that is run where a record has no such element: an element is found by
  position only (R271), so elsewhere it is none. Safe; no step runs one there (log 9). -/
  | elementOutOfPlace
deriving DecidableEq, Repr

/-- A block of this configuration just instantiated, or just reset (10_state.md R38, 70_reset_and_hazards.md R250). -/
def State.ofConfig (c : Config) : State where
  cfg := c
  bw := { acc := 0, nacc := 0, out := [], err := false }
  br := { buf := [], byteIndex := 0, bitIndex := 0 }
  fe := { prev := List.replicate c.totalPixels false }
  fd := { stream := [], pos := 0, canvas := List.replicate c.totalPixels false, rsvdSeen := false }
  port := []
  scan := .idle
  result := none

/-- Instantiating a block: a configuration outside the legal range is refused (R7). -/
def State.instantiate (c : Config) : Option State :=
  if c.legal then some (State.ofConfig c) else none

/-- The machine right after reset (R38); its configuration is the unspecified one of R5 (log 2). -/
def State.reset : State := State.ofConfig Config.block

/-- Replace the writer BW. -/
def State.withBw (s : State) (w : Writer) : State := { s with bw := w }

/-- Replace the reader BR. -/
def State.withBr (s : State) (r : Reader) : State := { s with br := r }

/-- Replace the reference frame FE.prev. -/
def State.withPrev (s : State) (m : Mask) : State := { s with fe := { prev := m } }

/-- Replace the decoder FD. -/
def State.withFd (s : State) (d : Decoder) : State := { s with fd := d }

/-- Replace the operations waiting on the port. -/
def State.withPort (s : State) (p : Bits) : State := { s with port := p }

/-- Replace the element-wise FD.STEP under way. -/
def State.withScan (s : State) (x : Scan) : State := { s with scan := x }

/-- Hand a result to the host. -/
def State.withResult (s : State) (r : Result) : State := { s with result := some r }

end Sys2Proof.Machine
end

