-- ==== Sys2Proof/Machine/Operands.lean ====
section
/-! DEFINITION. The operand checks of the operations (60_exceptions.md R226 to R229, R233) and the widths that follow
from the configuration (00_scope.md R6). -/

namespace Sys2Proof.Machine

open Sys2Proof

/-- A field width BW and BR accept, `1..32` (R102, R122, R162, R166). -/
abbrev widthOk (numBits : Nat) : Prop := numBitsMin ≤ numBits ∧ numBits ≤ numBitsMax

/-- The constraint `value < 2^num_bits` of BW.WRITE (R102, R229). -/
abbrev valueOk (value numBits : Nat) : Prop := value < 2 ^ numBits

/-- The operand checks of BW.WRITE in their order: the sticky flag, the width, the value (R102, R233). -/
def writeCheck (err : Bool) (value numBits : Nat) : Option FaultCode :=
  if err then some .writerFaulted
  else if ¬ widthOk numBits then some .numBitsRange
  else if ¬ valueOk value numBits then some .valueRange
  else none

/-- The operand checks of FE.ENCODE_FRAME in their order (R183, R233). -/
def frameCheck (c : Config) (ac : Memory) (pixels : Mask) : Option FaultCode :=
  if ac.length ≠ acBytes then some .acLength
  else if pixels.length ≠ c.totalPixels then some .pixelsLength
  else none

/-- The least `k` in `start, start + 1, ...` with `2^k >= n`, looked for in `fuel` steps (R6). -/
def leastExponent (n : Nat) : Nat → Nat → Nat
  | 0, start => start
  | fuel + 1, start => if n ≤ 2 ^ start then start else leastExponent n fuel (start + 1)

/-- `clog2(n)`: the least `k` with `2^k >= n`, in exact integer arithmetic (R6, R261). -/
def clog2 (n : Nat) : Nat := leastExponent n n 0

/-- `INDEX_BITS = clog2(TOTAL_PIXELS)` (R6). -/
def indexBits (c : Config) : Nat := clog2 c.totalPixels

end Sys2Proof.Machine
end

