-- ==== Sys2Proof/Machine/Flags.lean ====
section
/-! DEFINITION. The two sticky flags of the block (10_state.md R33): BW.err and FD.rsvd_seen. There is no other flag
and no condition code. -/

namespace Sys2Proof.Machine

open Sys2Proof

/-- `BW.err <- true`; the writer's contents stay (60_exceptions.md R227). -/
def setWriterErr (w : Writer) : Writer := { w with err := true }

/-- The reserved bits 6..0 of a header byte are not all zero (30_encoding.md R82, 45_frame_decoder.md R207). -/
def reservedSet (r : BitVec 7) : Bool := decide (r ≠ 0)

/-- FD.rsvd_seen after a header byte: set by a malformed one, never cleared by it (R207). -/
def rsvdAfterHeader (seen reserved : Bool) : Bool := seen || reserved

end Sys2Proof.Machine
end

