-- ==== Sys2Proof/Machine/Ops.lean ====
section
/-! DEFINITION. The named operations over the memories, the writer, the reader and the boolean sequences; completing
an operation with a result; and taking a fault (60_exceptions.md R234). -/

namespace Sys2Proof.Machine

open Sys2Proof

/-- What a step of this block answers. -/
abbrev Answer := Host.Outcome State Fault Refusal

/-- `return r`: the operation completes and hands `r` to the host (00_scope.md R13). -/
def complete (r : Result) (s : State) : Answer := .next (s.withResult r)

/-- `raise Fault(code)` (60_exceptions.md R234): nothing is saved and control goes nowhere; the result is
`Fault(code)` in place of the normal one. There is no return from a fault: nothing was saved, and the host may issue
any operation next (R235). -/
def raiseFault (code : FaultCode) (s : State) : Answer := complete (.fault code) s

/-- One byte of a memory; there is none at or beyond its length (20_memory.md R59). -/
def readByte (m : Memory) (a : Nat) : Option Byte := m[a]?

/-- `MemRead(B, a, n)`: the bytes `B[a..a+n)` (R13). -/
def memRead (m : Memory) (a n : Nat) : Memory := (m.drop a).take n

/-- `B[a..]` (R12). -/
def restFrom (m : Memory) (a : Nat) : Memory := m.drop a

/-- The only memory write of the hardware: the append `B <- B ++ [byte]` (R13). -/
def appendByte (m : Memory) (b : Byte) : Memory := m ++ [b]

/-- A memory as the host writes one, each byte beside its address. -/
def memCells (m : Memory) : List Host.Cell := m.zipIdx.map fun p => (p.2, p.1)

/-- The canonical form of a memory's cells: the addresses are `0, 1, 2, ...` in order (log 11). -/
abbrev memCellsWf (cells : List Host.Cell) : Prop := cells.map Prod.fst = List.range cells.length

/-- The canonical form holds of a memory (log 11). -/
abbrev Memory.wf (m : Memory) : Prop := memCellsWf (memCells m)

/-- `a XOR b`, elementwise, on boolean sequences of equal length (R12). -/
def xorMask (a b : Mask) : Mask := List.zipWith xor a b

/-- `rep(false, n)` (R12). -/
def blankMask (n : Nat) : Mask := List.replicate n false

/-- The indices of the `true` elements, the first element having the index `start` (R12). -/
def onesFrom (start : Nat) : Mask → List Nat
  | [] => []
  | b :: m => if b then start :: onesFrom (start + 1) m else onesFrom (start + 1) m

/-- `ones(m)` (R12): ascending. -/
def ones (m : Mask) : List Nat := onesFrom 0 m

/-- A writer just cleared (R101). -/
def emptyWriter : Writer := { acc := 0, nacc := 0, out := [], err := false }

/-- One turn of the loop of BW.WRITE: one bit is appended, and eight pending bits become a byte (R103). -/
def pushBit (w : Writer) (b : Bool) : Writer :=
  if w.nacc + 1 = 8 then
    { w with acc := 0, nacc := 0, out := appendByte w.out (BitVec.ofNat 8 (pushLow w.acc b)) }
  else { w with acc := pushLow w.acc b, nacc := w.nacc + 1 }

/-- The loop of BW.WRITE: `for i from num_bits-1 down to 0` (R103). -/
def writeBits (w : Writer) (value : Nat) : Nat → Writer
  | 0 => w
  | i + 1 => writeBits (pushBit w (value.testBit i)) value i

/-- The effect of BW.FLUSH on an unfaulted writer (R105). -/
def flushWriter (w : Writer) : Writer :=
  if 0 < w.nacc then
    { w with acc := 0, nacc := 0, out := appendByte w.out (BitVec.ofNat 8 (w.acc * 2 ^ (8 - w.nacc))) }
  else w

/-- A reader just loaded with a buffer (R121). -/
def loadReader (buf : Memory) : Reader := { buf := buf, byteIndex := 0, bitIndex := 0 }

/-- `rem`: the number of bits that remain (R26, R123). -/
def remaining (r : Reader) : Nat := 8 * (r.buf.length - r.byteIndex) - r.bitIndex

/-- The next bit, bit `7 - bit_index` of the byte at `byte_index` (R25). The loop of BR.READ reads it only while bits
remain (R59, log 16). -/
def currentBit (r : Reader) : Bool := ((readByte r.buf r.byteIndex).getD 0).toNat.testBit (7 - r.bitIndex)

/-- The cursor moves by one bit (R123). -/
def advanceBit (r : Reader) : Reader :=
  if r.bitIndex + 1 = 8 then { r with byteIndex := r.byteIndex + 1, bitIndex := 0 }
  else { r with bitIndex := r.bitIndex + 1 }

/-- The loop of BR.READ: `n` more bits onto `v` (R123). -/
def readBits : Nat → Reader → Nat → Nat × Reader
  | 0, r, v => (v, r)
  | n + 1, r, v => readBits n (advanceBit r) (pushLow v (currentBit r))

/-- BR.READ of a legal width: the value and the reader after it, or `none` for `Exhausted` (R123). -/
def readField (r : Reader) (n : Nat) : Option (Nat × Reader) :=
  if remaining r < n then none else some (readBits n r 0)

/-- `consumed(r)`: the bytes of which at least one bit has been consumed (R125). -/
def consumed (r : Reader) : Nat := r.byteIndex + if 0 < r.bitIndex then 1 else 0

end Sys2Proof.Machine
end

