-- ==== Sys2Proof/Machine/BitstreamReader.lean ====
section
/-! DEFINITION. The unit bitstream_reader, BR (41_bitstream_reader.md). -/

namespace Sys2Proof.Machine

open Sys2Proof

/-- BR.LOAD (R121). -/
def execBrLoad (buf : Memory) (s : State) : Answer := complete .ok (s.withBr (loadReader buf))

/-- BR.READ (R122, R123): a refused width and an exhausted read move nothing. -/
def execBrRead (numBits : Nat) (s : State) : Answer :=
  if widthOk numBits then
    match readField s.br numBits with
    | none => complete .exhausted s
    | some (v, r) => complete (.value v) (s.withBr r)
  else raiseFault .numBitsRange s

/-- BR.POS (R124). -/
def execBrPos (s : State) : Answer := complete (.pos s.br.byteIndex s.br.bitIndex) s

/-- BR.CONSUMED (R125). -/
def execBrConsumed (s : State) : Answer := complete (.count (consumed s.br)) s

end Sys2Proof.Machine
end

