-- ==== Sys2Proof/Machine/BitstreamWriter.lean ====
section
/-! DEFINITION. The unit bitstream_writer, BW (40_bitstream_writer.md). -/

namespace Sys2Proof.Machine

open Sys2Proof

/-- BW.CLEAR (R101). -/
def execBwClear (s : State) : Answer := complete .ok (s.withBw emptyWriter)

/-- BW.WRITE (R102, R103): a refused width or value sets the sticky flag and appends nothing. -/
def execBwWrite (value numBits : Nat) (s : State) : Answer :=
  match writeCheck s.bw.err value numBits with
  | some .writerFaulted => raiseFault .writerFaulted s
  | some code => raiseFault code (s.withBw (setWriterErr s.bw))
  | none => complete .ok (s.withBw (writeBits s.bw value numBits))

/-- BW.FLUSH (R105). -/
def execBwFlush (s : State) : Answer :=
  if s.bw.err then raiseFault .writerFaulted s else complete .ok (s.withBw (flushWriter s.bw))

/-- BW.GET_BYTES (R106): the completed bytes, never the pending bits (R63). -/
def execBwGetBytes (s : State) : Answer :=
  if s.bw.err then raiseFault .writerFaulted s else complete (.bytes s.bw.out) s

end Sys2Proof.Machine
end

