-- ==== Sys2Proof/Machine/PositionalCodec.lean ====
section
/-! DEFINITION. The units positional_index_encoder, POSE, and positional_index_decoder, POSD
(43_positional_codec.md). Neither keeps state (R27); the private writer and reader live inside one operation (R21). -/

namespace Sys2Proof.Machine

open Sys2Proof


/-- The mask has no positional encoding of this width: its count, or its last index, does not fit (R163). -/
def poseOverflow (idx : List Nat) (w : Nat) : Bool :=
  decide (2 ^ w ≤ idx.length) || (idx.getLast?.any fun x => decide (2 ^ w ≤ x))

/-- The private writer after the fields of `values`, each `w` bits wide (R161). -/
def writeFields (bw : Writer) (w : Nat) : List Nat → Writer
  | [] => bw
  | x :: values => writeFields (writeBits bw x w) w values

/-- POSE.ENCODE of a legal width: count, indices, one flush; `none` for `Overflow` (R161, R163). -/
def poseBytes (mask : Mask) (w : Nat) : Option Memory :=
  if poseOverflow (ones mask) w then none
  else some (flushWriter (writeFields emptyWriter w ((ones mask).length :: ones mask))).out

/-- One index field of value `x`: position `x` is set, or the field is ignored (R167). -/
def setIndex (total : Nat) (m : Mask) (x : Nat) : Mask := if x < total then m.set x true else m

/-- The index loop of POSD.DECODE: at most `c` more fields, ended by the first exhausted read (R167). -/
def posdLoop (total w : Nat) : Nat → Reader → Mask → Mask × Reader
  | 0, r, m => (m, r)
  | c + 1, r, m =>
    match readField r w with
    | none => (m, r)
    | some (x, r') => posdLoop total w c r' (setIndex total m x)

/-- POSD.DECODE of a legal width: the mask and the number of bytes consumed (R166, R168). -/
def posdScan (bytes : Memory) (total w : Nat) : Mask × Nat :=
  match readField (loadReader bytes) w with
  | none => (blankMask total, consumed (loadReader bytes))
  | some (c, r) => ((posdLoop total w c r (blankMask total)).1, consumed (posdLoop total w c r (blankMask total)).2)

/-- POSE.ENCODE (R161, R162). -/
def execPoseEncode (mask : Mask) (w : Nat) (s : State) : Answer :=
  if widthOk w then
    match poseBytes mask w with
    | none => complete .overflow s
    | some b => complete (.bytes b) s
  else raiseFault .numBitsRange s

/-- POSD.DECODE (R166). -/
def execPosdDecode (bytes : Memory) (total w : Nat) (s : State) : Answer :=
  if widthOk w then complete (.mask (posdScan bytes total w).1 (posdScan bytes total w).2) s
  else raiseFault .numBitsRange s

end Sys2Proof.Machine
end

