-- ==== Sys2Proof/Machine/RleCodec.lean ====
section
/-! DEFINITION. The units rle_encoder, RLEE, and rle_decoder, RLED (42_rle_codec.md). Neither keeps state (R27). -/

namespace Sys2Proof.Machine

open Sys2Proof

/-- The scan of RLEE.ENCODE inside a stretch of `r` elements equal to `v`: the stretch is cut at 127 (R141). -/
def rleeRuns (v : Bool) (r : Nat) : Mask → Memory
  | [] => [runByte v r]
  | b :: m => if b = v ∧ r < maxRun then rleeRuns v (r + 1) m else runByte v r :: rleeRuns b 1 m

/-- The bytes of RLEE.ENCODE (R141); the empty mask gives none (R143). -/
def rleeBytes : Mask → Memory
  | [] => []
  | b :: m => rleeRuns b 1 m

/-- The positions written after one more run: `l` copies of `v`, clipped at the end of the mask (R146, R148). A run of
length 0 writes nothing (R147). -/
def fillRun (total : Nat) (written : Mask) (v : Bool) (l : Nat) : Mask :=
  written ++ List.replicate (min l (total - written.length)) v

/-- The loop of RLED.DECODE: the positions written from the start of the mask, and the bytes read (R146). -/
def rledLoop (total : Nat) : Memory → Mask → Nat → Mask × Nat
  | [], written, k => (written, k)
  | b :: bytes, written, k =>
    if written.length < total then rledLoop total bytes (fillRun total written (topBit b) (lowSeven b).toNat) (k + 1)
    else (written, k)

/-- The positions not reached keep their default value, `false` (R146, R150). -/
def padMask (total : Nat) (written : Mask) : Mask := written ++ blankMask (total - written.length)

/-- RLED.DECODE: the mask and the number of bytes read (R146, R149). -/
def rledScan (bytes : Memory) (total : Nat) : Mask × Nat :=
  (padMask total (rledLoop total bytes [] 0).1, (rledLoop total bytes [] 0).2)

/-- RLEE.ENCODE (R141). -/
def execRleeEncode (mask : Mask) (s : State) : Answer := complete (.bytes (rleeBytes mask)) s

/-- RLED.DECODE (R146). -/
def execRledDecode (bytes : Memory) (total : Nat) (s : State) : Answer :=
  complete (.mask (rledScan bytes total).1 (rledScan bytes total).2) s

end Sys2Proof.Machine
end

