-- ==== Sys2Proof/Machine/FrameDecoder.lean ====
section
/-! DEFINITION. The unit frame_decoder_with_delta_reconstruction, FD (45_frame_decoder.md). An operation of FD ends an
element-wise FD.STEP that is under way (log 19). -/

namespace Sys2Proof.Machine

open Sys2Proof

/-- The mask and the bytes consumed of a payload, by the method bit of its header (R82, R204). The private decoder is
given the whole rest of the stream (R206). -/
def decodePayload (c : Config) (header : Byte) (rest : Memory) : Mask × Nat :=
  if topBit header then posdScan rest c.totalPixels (indexBits c) else rledScan rest c.totalPixels

/-- The writes of an FD.STEP that delivers a frame: the mask is XORed into the canvas, the cursor moves past the head
and the `k` payload bytes, the flag is set for a malformed header (R207, R208, R209). -/
def deliver (d : Decoder) (mask : Mask) (k : Nat) (reserved : Bool) : Decoder :=
  { d with canvas := xorMask d.canvas mask, pos := d.pos + acBytes + headerBytes + k,
           rsvdSeen := rsvdAfterHeader d.rsvdSeen reserved }

/-- FD.STEP on the decoder: the frame and the decoder after it, or `none` for `End` when fewer than three bytes remain
(R204, R205). -/
def decodeRecord (c : Config) (d : Decoder) : Option (Frame × Decoder) :=
  match restFrom d.stream d.pos with
  | a :: b :: h :: rest =>
    let d' := deliver d (decodePayload c h rest).1 (decodePayload c h rest).2 (reservedSet (lowSeven h))
    some (⟨[a, b], d'.canvas⟩, d')
  | _ => none

/-- FD.STEP repeated until `End`, at most `fuel` times: the frames in order and the decoder after the last step
(R210). -/
def decodeAll (c : Config) : Nat → Decoder → List Frame × Decoder
  | 0, d => ([], d)
  | fuel + 1, d =>
    match decodeRecord c d with
    | none => ([], d)
    | some (f, d') => (f :: (decodeAll c fuel d').1, (decodeAll c fuel d').2)

/-- A decoder at the start of a stream (R201). -/
def startDecoder (c : Config) (stream : Memory) : Decoder :=
  { stream := stream, pos := 0, canvas := blankMask c.totalPixels, rsvdSeen := false }

/-- FD.START (R201). -/
def execFdStart (stream : Memory) (s : State) : Answer :=
  complete .ok ((s.withFd (startDecoder s.cfg stream)).withScan .idle)

/-- FD.STEP (R204, R205). -/
def execFdStep (s : State) : Answer :=
  match decodeRecord s.cfg s.fd with
  | none => complete .endOfStream (s.withScan .idle)
  | some (f, d) => complete (.frame f) ((s.withFd d).withScan .idle)

/-- FD.RUN (R210): a stream of `n` bytes has at most `n / 3` frames, so `n` steps reach `End`. -/
def execFdRun (s : State) : Answer :=
  complete (.frames (decodeAll s.cfg s.fd.stream.length s.fd).1)
    ((s.withFd (decodeAll s.cfg s.fd.stream.length s.fd).2).withScan .idle)

/-- FD.STATUS (R211). -/
def execFdStatus (s : State) : Answer := complete (.status s.fd.pos s.fd.stream.length s.fd.rsvdSeen) s

end Sys2Proof.Machine
end

