-- ==== Sys2Proof/Machine/FrameEncoder.lean ====
section
/-! DEFINITION. The unit frame_encoder_adaptive_selector, FE (44_frame_encoder.md). -/

namespace Sys2Proof.Machine

open Sys2Proof

/-- The header byte and the payload FE selects for a delta mask: RLE where there is no positional candidate or it is
not shorter (R185). -/
def selectPayload (mask : Mask) (w : Nat) : Byte × Memory :=
  match poseBytes mask w with
  | none => (hdrRleByte, rleeBytes mask)
  | some pos =>
    if (rleeBytes mask).length ≤ pos.length then (hdrRleByte, rleeBytes mask) else (hdrPosByte, pos)

/-- The record of one frame against the reference frame `prev` (R80, R184). -/
def encodeRecord (c : Config) (prev : Mask) (ac : Memory) (pixels : Mask) : Memory :=
  ac ++ (selectPayload (xorMask pixels prev) (indexBits c)).1 :: (selectPayload (xorMask pixels prev) (indexBits c)).2

/-- FE.RESET (R181). -/
def execFeReset (s : State) : Answer := complete .ok (s.withPrev (blankMask s.cfg.totalPixels))

/-- FE.ENCODE_FRAME (R183, R184): the reference frame becomes the operand itself (R186). -/
def execFeEncodeFrame (ac : Memory) (pixels : Mask) (s : State) : Answer :=
  match frameCheck s.cfg ac pixels with
  | some code => raiseFault code s
  | none => complete (.record (encodeRecord s.cfg s.fe.prev ac pixels)) (s.withPrev pixels)

end Sys2Proof.Machine
end

