-- ==== Sys2Proof/Machine/StreamElements.lean ====
section
/-! DEFINITION. The seven stream elements (30_encoding.md R80 to R89): what FD does with each at its place in a
record, as one turn of the pseudocode of R146, R166 and R204. The variables of that pseudocode stand in `State.scan`
(log 8); the fields of FD are written once, when the record is complete (R13, R14). -/

namespace Sys2Proof.Machine

open Sys2Proof

/-- The record is complete: FD's writes happen together and the frame is the result (R204). -/
def finishRecord (a b : Byte) (reserved : Bool) (mask : Mask) (k : Nat) (s : State) : Answer :=
  complete (.frame ⟨[a, b], (deliver s.fd mask k reserved).canvas⟩)
    ((s.withFd (deliver s.fd mask k reserved)).withScan .idle)

/-- The bytes from the first payload byte of the record at the cursor to the end of the stream (R206). -/
def payloadRest (d : Decoder) : Memory := restFrom d.stream (d.pos + acBytes + headerBytes)

/-- The test of the loop of RLED.DECODE: another run byte is wanted and there is one (R146). If not, the record is
complete. -/
def nextRun (a b : Byte) (reserved : Bool) (written : Mask) (k : Nat) (s : State) : Answer :=
  if written.length < s.cfg.totalPixels ∧ k < (payloadRest s.fd).length then
    .next (s.withScan (.runs a b reserved written k))
  else finishRecord a b reserved (padMask s.cfg.totalPixels written) k s

/-- An element where a record has no such element (log 9). -/
def outOfPlace : Answer := .refused .elementOutOfPlace

/-- `AC a b` (R80): the two bytes are kept as they are. -/
def execAc (a b : Byte) (s : State) : Answer :=
  match s.scan with
  | .recordHead => .next (s.withScan (.headerByte a b))
  | _ => outOfPlace

/-- `HDR.RLE` (R81, R82): the payload is read by RLED. -/
def execHdrRle (r : BitVec 7) (s : State) : Answer :=
  match s.scan with
  | .headerByte a b => nextRun a b (reservedSet r) [] 0 s
  | _ => outOfPlace

/-- `HDR.POS` (R81, R82): the payload is read by POSD, whose private reader is loaded with the rest of the stream. -/
def execHdrPos (r : BitVec 7) (s : State) : Answer :=
  match s.scan with
  | .headerByte a b => .next (s.withScan (.countField a b (reservedSet r) (loadReader (payloadRest s.fd))))
  | _ => outOfPlace

/-- `RUN v, l` (R84, R146 to R148): `l` copies of `v`, clipped at the end of the mask. -/
def execRun (v : Bool) (l : BitVec 7) (s : State) : Answer :=
  match s.scan with
  | .runs a b reserved written k => nextRun a b reserved (fillRun s.cfg.totalPixels written v l.toNat) (k + 1) s
  | _ => outOfPlace

/-- The private reader can deliver a field of the configured width (R123, R166). -/
def fieldPresent (c : Config) (rd : Reader) : Bool := decide (indexBits c ≤ remaining rd)

/-- `POS.COUNT` (R85, R166): `count` index fields are wanted. -/
def execPosCount (w count : Nat) (s : State) : Answer :=
  match s.scan with
  | .countField a b reserved rd =>
    if w = indexBits s.cfg ∧ fieldPresent s.cfg rd then
      .next (s.withScan (.indexFields a b reserved (readBits w rd 0).2 count (blankMask s.cfg.totalPixels)))
    else outOfPlace
  | _ => outOfPlace

/-- `POS.INDEX` (R85, R167): the position is set, or the field ignored where it is out of range. -/
def execPosIndex (w index : Nat) (s : State) : Answer :=
  match s.scan with
  | .indexFields a b reserved rd (left + 1) mask =>
    if w = indexBits s.cfg ∧ fieldPresent s.cfg rd then
      .next (s.withScan (.indexFields a b reserved (readBits w rd 0).2 left (setIndex s.cfg.totalPixels mask index)))
    else outOfPlace
  | _ => outOfPlace

/-- The bits from the cursor to the next byte boundary (R85, R168). -/
def paddingWidth (rd : Reader) : Nat := (8 - rd.bitIndex) % 8

/-- `POS.PAD` (R85, R86): its bits are never examined; the payload ends at the byte boundary after it, and the bytes
consumed are counted there (R168). After a truncated payload it is the rest of the byte the last field ended in
(log 10). -/
def execPosPad (bits : Bits) (s : State) : Answer :=
  match s.scan with
  | .countField a b reserved rd =>
    if bits.length = paddingWidth rd ∧ ¬ fieldPresent s.cfg rd then
      finishRecord a b reserved (blankMask s.cfg.totalPixels) (consumed rd) s
    else outOfPlace
  | .indexFields a b reserved rd left mask =>
    if bits.length = paddingWidth rd ∧ (left = 0 ∨ ¬ fieldPresent s.cfg rd) then
      finishRecord a b reserved mask (consumed rd) s
    else outOfPlace
  | _ => outOfPlace

end Sys2Proof.Machine
end

