-- ==== Sys2Proof/Machine/System.lean ====
section
/-! DEFINITION. RESET (10_state.md R38, 70_reset_and_hazards.md R250), the only operation of the whole block. -/

namespace Sys2Proof.Machine

open Sys2Proof

/-- RESET: every field of every unit takes its reset value; the configuration is not changed (R22), and the
operations the host has still to be served on the port are the host's, not state of the block (log 18). -/
def execReset (s : State) : Answer := complete .ok ((State.ofConfig s.cfg).withPort s.port)

end Sys2Proof.Machine
end

