-- ==== Sys2Proof/Machine/Dispatch.lean ====
section
/-! DEFINITION. The meaning of each instruction: one arm per row of spec/opcode_table.json. -/

namespace Sys2Proof.Machine

open Sys2Proof

def exec (i : Instr) (s : State) : Host.Outcome State Fault Refusal :=
  match i with
  | .bwClear => Sys2Proof.Machine.execBwClear s
  | .bwWrite v n => Sys2Proof.Machine.execBwWrite v n s
  | .bwFlush => Sys2Proof.Machine.execBwFlush s
  | .bwGetBytes => Sys2Proof.Machine.execBwGetBytes s
  | .brLoad b => Sys2Proof.Machine.execBrLoad b s
  | .brRead n => Sys2Proof.Machine.execBrRead n s
  | .brPos => Sys2Proof.Machine.execBrPos s
  | .brConsumed => Sys2Proof.Machine.execBrConsumed s
  | .rleeEncode m => Sys2Proof.Machine.execRleeEncode m s
  | .rledDecode b n => Sys2Proof.Machine.execRledDecode b n s
  | .poseEncode m w => Sys2Proof.Machine.execPoseEncode m w s
  | .posdDecode b n w => Sys2Proof.Machine.execPosdDecode b n w s
  | .feReset => Sys2Proof.Machine.execFeReset s
  | .feEncodeFrame a p => Sys2Proof.Machine.execFeEncodeFrame a p s
  | .fdStart b => Sys2Proof.Machine.execFdStart b s
  | .fdStep => Sys2Proof.Machine.execFdStep s
  | .fdRun => Sys2Proof.Machine.execFdRun s
  | .fdStatus => Sys2Proof.Machine.execFdStatus s
  | .reset => Sys2Proof.Machine.execReset s
  | .ac a b => Sys2Proof.Machine.execAc a b s
  | .hdrRle r => Sys2Proof.Machine.execHdrRle r s
  | .hdrPos r => Sys2Proof.Machine.execHdrPos r s
  | .run v l => Sys2Proof.Machine.execRun v l s
  | .posCount w c => Sys2Proof.Machine.execPosCount w c s
  | .posIndex w x => Sys2Proof.Machine.execPosIndex w x s
  | .posPad b => Sys2Proof.Machine.execPosPad b s

end Sys2Proof.Machine
end

