-- ==== Sys2Proof/Machine/Fetch.lean ====
section
/-! DEFINITION. Where the next instruction comes from. The host's operations come from the port, in the order it issued
them (10_state.md R20, 20_memory.md R62); while an FD.STEP is run element by element, the next element comes from the
stream, and its place alone says which element it is (R271). -/

namespace Sys2Proof.Machine

open Sys2Proof

/-- The bits a reader has still to deliver (R26, R50). -/
def readerBits (rd : Reader) : Bits := (memBits rd.buf).drop (8 * rd.byteIndex + rd.bitIndex)

/-- The place of the next field of a positional payload: a field if one is wanted and present, else the padding
(R166, R167). -/
def fieldSlot (c : Config) (rd : Reader) (wanted : Bool) (field : Slot) : Slot :=
  if wanted && fieldPresent c rd then field else .padding (paddingWidth rd)

/-- What the next instruction is and the bits it is read from. -/
def fetchPlace (s : State) : Slot × Bits :=
  match s.scan with
  | .idle => (.command, s.port)
  | .recordHead => (.audioControl, memBits (restFrom s.fd.stream s.fd.pos))
  | .headerByte _ _ => (.header, memBits (restFrom s.fd.stream (s.fd.pos + acBytes)))
  | .runs _ _ _ _ k => (.runByte, memBits (restFrom (payloadRest s.fd) k))
  | .countField _ _ _ rd => (fieldSlot s.cfg rd true (.countField (indexBits s.cfg)), readerBits rd)
  | .indexFields _ _ _ rd left _ =>
    (fieldSlot s.cfg rd (decide (left ≠ 0)) (.indexField (indexBits s.cfg)), readerBits rd)

/-- Fewer than three bytes remain where a record should start (R205). -/
def noRecordHead (d : Decoder) : Bool := decide (d.stream.length - d.pos < acBytes + headerBytes)

/-- The state in which a fetched instruction runs: an operation is taken off the port. -/
def afterFetch (s : State) (rest : Bits) : State :=
  match s.scan with
  | .idle => s.withPort rest
  | _ => s

/-- What a fetch gives: an instruction and the state it runs in, or an answer without an instruction. -/
inductive Fetched where
  | instr (i : Instr) (s : State)
  | answer (a : Answer)

/-- The next instruction: none if the host has issued none (R20, log 6) or no record head is left (R205). -/
def fetch (s : State) : Fetched :=
  if s.scan = .idle ∧ s.port = [] then .answer (.refused .awaitingHost)
  else if s.scan = .recordHead ∧ noRecordHead s.fd = true then .answer (complete .endOfStream (s.withScan .idle))
  else
    match decode (fetchPlace s).1 (fetchPlace s).2 with
    | .ok (i, rest) => .instr i (afterFetch s rest)
    | .error why => .answer (.refused (.undecodable why))

/-- The bits of one operation of the table, and no bits after it. -/
def commandBits (nbits w : Nat) : Bits :=
  match decode .command (wordBits nbits w 3) with
  | .ok (_, rest) => (wordBits nbits w 3).take ((wordBits nbits w 3).length - rest.length)
  | .error _ => wordBits nbits w 3

/-- A decoder whose cursor stands before these bytes. -/
def streamAt (d : Decoder) (m : Memory) : Decoder := { d with stream := m, pos := 0 }

/-- The state in which a table word is what the next fetch reads: an operation is put on the port; an audio-control
field or a header byte is put at its place in a record that is being decoded element by element (log 5, log 14,
log 24). -/
def placeWord (s : State) (nbits w : Nat) : State :=
  match tableSlot nbits w with
  | .command => (s.withPort (commandBits nbits w)).withScan .idle
  | .audioControl => (s.withFd (streamAt s.fd (bitsToBytes (wordBits nbits w 1)))).withScan .recordHead
  | _ => (s.withFd (streamAt s.fd (0 :: 0 :: bitsToBytes (wordBits nbits w 0)))).withScan (.headerByte 0 0)

end Sys2Proof.Machine
end

