-- ==== Sys2Proof/Machine/Step.lean ====
section
/-! DEFINITION. One step of the machine: the next instruction is fetched and its meaning is run. -/

namespace Sys2Proof.Machine

open Sys2Proof

/-- One step: an operation of the host (R20), or one element of the stream while an FD.STEP is run element by
element (log 8). -/
def step (s : State) : Host.Outcome State Fault Refusal :=
  match fetch s with
  | .instr i s' => exec i s'
  | .answer a => a

/-- `s` with a word of the opcode table where the next step fetches (log 5, log 14, log 24). -/
def State.withFetchWord (s : State) (nbits w : Nat) : State := placeWord s nbits w

end Sys2Proof.Machine
end

