-- ==== Sys2Proof/Safety.lean ====
section
/-! DEFINITION. What the rules of 10_state.md say is true after reset and after every operation (R24, R26, R28, R29),
and the same for the element-wise FD.STEP of the model (log 8); and what the steps of a run are. -/

namespace Sys2Proof.Machine

open Sys2Proof

/-- The invariant of a writer (R24). -/
abbrev WriterInv (w : Writer) : Prop := w.nacc ≤ 7 ∧ w.acc < 2 ^ w.nacc

/-- The bit string a writer has accepted: the bits of its bytes and then its pending bits (R24). -/
def writerBits (w : Writer) : Bits := memBits w.out ++ bitsMsb w.acc w.nacc

/-- The stream bit number of a reader's cursor: the number of bits consumed (R26). -/
def readerPos (r : Reader) : Nat := 8 * r.byteIndex + r.bitIndex

/-- The invariant of a reader (R26). -/
abbrev ReaderInv (r : Reader) : Prop :=
  r.byteIndex ≤ r.buf.length ∧ r.bitIndex ≤ 7 ∧ (r.byteIndex = r.buf.length → r.bitIndex = 0)

/-- The invariant of the frame decoder: the cursor stays in the stream and the canvas keeps its size (R29, R208). -/
abbrev DecoderInv (c : Config) (d : Decoder) : Prop := d.pos ≤ d.stream.length ∧ d.canvas.length = c.totalPixels

/-- The variables of an element-wise FD.STEP are those of the pseudocode at that point (log 8). -/
def ScanInv (s : State) : Prop :=
  match s.scan with
  | .idle => True
  | .recordHead => True
  | .headerByte _ _ => s.fd.pos + 3 ≤ s.fd.stream.length
  | .runs _ _ _ written k =>
    s.fd.pos + 3 ≤ s.fd.stream.length ∧ written.length < s.cfg.totalPixels ∧ k < (payloadRest s.fd).length
  | .countField _ _ _ rd => s.fd.pos + 3 ≤ s.fd.stream.length ∧ ReaderInv rd ∧ rd.buf = payloadRest s.fd
  | .indexFields _ _ _ rd _ mask =>
    s.fd.pos + 3 ≤ s.fd.stream.length ∧ ReaderInv rd ∧ rd.buf = payloadRest s.fd ∧
      mask.length = s.cfg.totalPixels

/-- The invariant of the block. -/
structure StateInv (s : State) : Prop where
  cfg : s.cfg.legal
  bw : WriterInv s.bw
  br : ReaderInv s.br
  fe : s.fe.prev.length = s.cfg.totalPixels
  fd : DecoderInv s.cfg s.fd
  scan : ScanInv s

/-- The state after an answer that is a next state. -/
def nextState : Answer → Option State
  | .next s => some s
  | .fault _ => none
  | .refused _ => none

/-- The instructions of a list, one after the other; `none` where one of them has no next state. -/
def execAll : List Instr → State → Option State
  | [], s => some s
  | i :: is, s => (nextState (exec i s)).bind (execAll is)

/-- The results of the instructions of a list, in order. -/
def resultsOf : List Instr → State → List Result
  | [], _ => []
  | i :: is, s =>
    match exec i s with
    | .next t => t.result.toList ++ resultsOf is t
    | _ => []

/-- The sum of the widths of the BR.READ operations of a list that return a value (R126). -/
def bitsRead : List Instr → State → Nat
  | [], _ => 0
  | i :: is, s =>
    match exec i s with
    | .next t => (match i, t.result with | .brRead n, some (.value _) => n | _, _ => 0) + bitsRead is t
    | _ => 0

/-- `n` steps of the machine. -/
def stepMany : Nat → State → Option State
  | 0, s => some s
  | n + 1, s => (nextState (step s)).bind (stepMany n)

end Sys2Proof.Machine
end

