-- ==== Sys2Proof/Certificates/Slice0/Obligations.lean ====
section
/-! DEFINITION. The statements for the provers, in the order of the spec's files. -/

open Sys2Proof Sys2Proof.Machine

/-! ### Configuration, reset, state (00_scope.md, 10_state.md, 70_reset_and_hazards.md) -/

/-- R6: `clog2(n)` is the least `k` with `2^k >= n`, and INDEX_BITS is that of TOTAL_PIXELS = WIDTH * HEIGHT. The spec
marks as its own decision R6 (D33). -/
def Obligations.Clog2IsLeastExponent : Prop :=
  (∀ n, 1 ≤ n → n ≤ 2 ^ clog2 n ∧ ∀ k, n ≤ 2 ^ k → clog2 n ≤ k) ∧
    ∀ c : Config, c.totalPixels = c.width * c.height ∧ indexBits c = clog2 c.totalPixels

/-- R7: a block is instantiated exactly for the legal configurations, and then INDEX_BITS is a width BW and BR accept.
The spec marks as its own decision R7 (D4). -/
def Obligations.IllegalConfigurationIsRefused : Prop :=
  ∀ c : Config,
    (2 ≤ c.totalPixels ∧ c.totalPixels ≤ 2 ^ 32 →
      State.instantiate c = some (State.ofConfig c) ∧ 1 ≤ indexBits c ∧ indexBits c ≤ 32) ∧
    (¬ (2 ≤ c.totalPixels ∧ c.totalPixels ≤ 2 ^ 32) → State.instantiate c = none)

/-- R38: RESET, and what each unit's own initialising operation puts that unit into. What RESET does to the port and
to an element-wise FD.STEP is the model's choice (log 18, 19) and is not stated here. The spec marks as its own
decision R38 (D6, D10, D30). -/
def Obligations.ResetRestoresEveryUnit : Prop :=
  (∀ s : State, ∃ t, exec .reset s = .next t ∧ t.result = some .ok ∧ t.cfg = s.cfg ∧
    t.bw = { acc := 0, nacc := 0, out := [], err := false } ∧
    t.br = { buf := [], byteIndex := 0, bitIndex := 0 } ∧
    t.fe = { prev := List.replicate s.cfg.totalPixels false } ∧
    t.fd = { stream := [], pos := 0, canvas := List.replicate s.cfg.totalPixels false, rsvdSeen := false }) ∧
  (∀ (c : Config) (s t : State), State.instantiate c = some s → exec .reset s = .next t →
    s.bw = t.bw ∧ s.br = t.br ∧ s.fe = t.fe ∧ s.fd = t.fd) ∧
  (∀ (s t t' : State) (b : Memory), exec .reset s = .next t →
    (exec .bwClear s = .next t' → t'.bw = t.bw) ∧
    (exec (.brLoad b) s = .next t' → t'.br = { t.br with buf := b }) ∧
    (exec .feReset s = .next t' → t'.fe = t.fe) ∧
    (exec (.fdStart b) s = .next t' → t'.fd = { t.fd with stream := b })) ∧
  State.reset.bw = { acc := 0, nacc := 0, out := [], err := false } ∧
  State.reset.br = { buf := [], byteIndex := 0, bitIndex := 0 } ∧
  State.reset.fe = { prev := List.replicate State.reset.cfg.totalPixels false } ∧
  State.reset.fd =
    { stream := [], pos := 0, canvas := List.replicate State.reset.cfg.totalPixels false, rsvdSeen := false }

/-- R252: every operation completes as the first one after reset, and the results of those that need no data of the
host but their operands. The spec marks as its own inference R252. -/
def Obligations.FirstOperationAfterReset : Prop :=
  ∀ (c : Config) (n : Nat) (ac : Memory) (px : Mask), c.legal → 1 ≤ n → n ≤ 32 → ac.length = 2 →
    px.length = c.totalPixels →
    (∀ i : Instr, i.slot = .command → ∃ t, exec i (State.ofConfig c) = .next t) ∧
    (exec .bwGetBytes (State.ofConfig c) = .next ((State.ofConfig c).withResult (.bytes []))) ∧
    (exec .bwFlush (State.ofConfig c) = .next ((State.ofConfig c).withResult .ok)) ∧
    (exec (.brRead n) (State.ofConfig c) = .next ((State.ofConfig c).withResult .exhausted)) ∧
    (exec .brPos (State.ofConfig c) = .next ((State.ofConfig c).withResult (.pos 0 0))) ∧
    (exec .brConsumed (State.ofConfig c) = .next ((State.ofConfig c).withResult (.count 0))) ∧
    (exec .fdStep (State.ofConfig c) = .next ((State.ofConfig c).withResult .endOfStream)) ∧
    (exec .fdRun (State.ofConfig c) = .next ((State.ofConfig c).withResult (.frames []))) ∧
    (exec .fdStatus (State.ofConfig c) = .next ((State.ofConfig c).withResult (.status 0 0 false))) ∧
    ∃ h p, exec (.feEncodeFrame ac px) (State.ofConfig c) =
        .next (((State.ofConfig c).withPrev px).withResult (.record (ac ++ h :: p))) ∧
      (exec (.rleeEncode px) (State.ofConfig c) = .next ((State.ofConfig c).withResult (.bytes p)) ∨
        exec (.poseEncode px (indexBits c)) (State.ofConfig c) = .next ((State.ofConfig c).withResult (.bytes p)))

/-- R22: no instruction, RESET included, changes the configuration. -/
def Obligations.ConfigurationNeverChanges : Prop :=
  ∀ (i : Instr) (s t : State), exec i s = .next t → t.cfg = s.cfg

/-- 10_state.md section 9 and R62: what each instruction leaves unchanged. A unit is written only by its own
operations and by RESET; FD also by the last element of a record (log 8). The reads BW.GET_BYTES, BR.POS, BR.CONSUMED
and FD.STATUS change no unit. No instruction but BR.LOAD and RESET changes any byte of BR.buf, and none but FD.START
and RESET any byte of FD.stream (R36, R64). The spec marks as its own decision R36 (D29), R64 (D10). -/
def Obligations.UnitsDoNotInteract : Prop :=
  ∀ (i : Instr) (s t : State), exec i s = .next t → i ≠ .reset →
    ((i ≠ .bwClear ∧ i ≠ .bwFlush ∧ ∀ v n, i ≠ .bwWrite v n) → t.bw = s.bw) ∧
    (((∀ b, i ≠ .brLoad b) ∧ ∀ n, i ≠ .brRead n) → t.br = s.br) ∧
    ((i ≠ .feReset ∧ ∀ a p, i ≠ .feEncodeFrame a p) → t.fe = s.fe) ∧
    ((i.slot = .command ∧ i ≠ .fdStep ∧ i ≠ .fdRun ∧ ∀ b, i ≠ .fdStart b) → t.fd = s.fd) ∧
    ((∀ b, i ≠ .brLoad b) → ∀ a, readByte t.br.buf a = readByte s.br.buf a) ∧
    ((∀ b, i ≠ .fdStart b) → ∀ a, readByte t.fd.stream a = readByte s.fd.stream a) ∧
    t.port = s.port

/-- R27: the operations of RLEE, RLED, POSE and POSD complete in every state with a result that depends on their
operands alone, and change no field. -/
def Obligations.CodecOperationsArePure : Prop :=
  ∀ i : Instr, ((∃ m, i = .rleeEncode m) ∨ (∃ b n, i = .rledDecode b n) ∨ (∃ m w, i = .poseEncode m w) ∨
      ∃ b n w, i = .posdDecode b n w) →
    ∃ r, ∀ s, exec i s = .next (s.withResult r)

/-- R62: the state and the result of BW, of BR, of FE and of FD after one of their operations depend on that unit (and
the configuration) alone. -/
def Obligations.OperationReadsOwnUnitOnly : Prop :=
  ∀ (s s' t : State), s.cfg = s'.cfg →
    (∀ i, (i = .bwClear ∨ i = .bwFlush ∨ i = .bwGetBytes ∨ ∃ v n, i = .bwWrite v n) → s.bw = s'.bw →
      exec i s = .next t → ∃ t', exec i s' = .next t' ∧ t'.bw = t.bw ∧ t'.result = t.result) ∧
    (∀ i, (i = .brPos ∨ i = .brConsumed ∨ (∃ b, i = .brLoad b) ∨ ∃ n, i = .brRead n) → s.br = s'.br →
      exec i s = .next t → ∃ t', exec i s' = .next t' ∧ t'.br = t.br ∧ t'.result = t.result) ∧
    (∀ i, (i = .feReset ∨ ∃ a p, i = .feEncodeFrame a p) → s.fe = s'.fe →
      exec i s = .next t → ∃ t', exec i s' = .next t' ∧ t'.fe = t.fe ∧ t'.result = t.result) ∧
    (∀ i, (i = .fdStep ∨ i = .fdRun ∨ i = .fdStatus ∨ ∃ b, i = .fdStart b) → s.fd = s'.fd →
      exec i s = .next t → ∃ t', exec i s' = .next t' ∧ t'.fd = t.fd ∧ t'.result = t.result)

/-! ### Memories (20_memory.md) -/

/-- R36: BW.out is append-only. Every byte at an address below the old length reads as before, after every instruction
but BW.CLEAR and RESET, and only BW.WRITE (at most four bytes) and BW.FLUSH (at most one) add any. The spec marks as
its own decision R36 (D29). -/
def Obligations.OutputIsAppendOnly : Prop :=
  ∀ (i : Instr) (s t : State), exec i s = .next t → i ≠ .bwClear → i ≠ .reset → WriterInv s.bw →
    (∀ a, a < s.bw.out.length → readByte t.bw.out a = readByte s.bw.out a) ∧
    s.bw.out.length ≤ t.bw.out.length ∧ t.bw.out.length ≤ s.bw.out.length + 4 ∧
    (i = .bwFlush → t.bw.out.length ≤ s.bw.out.length + 1) ∧
    (i ≠ .bwFlush → (∀ v n, i ≠ .bwWrite v n) → t.bw.out = s.bw.out)

/-! ### Encodings (30_encoding.md) -/

/-- Decoding an encoded well-formed instruction gives it back, with every operand and whatever bits follow. The layout
of the operands of an operation on the port is the model's (log 3). -/
def Obligations.DecodeOfEncode : Prop :=
  ∀ (i : Instr) (rest : Bits), i.wellFormed = true → decode i.slot (encode i ++ rest) = .ok (i, rest)

/-- What is decoded encodes to the bits it was decoded from: no instruction has two encodings. The layout of the
operands of an operation on the port is the model's (log 3). -/
def Obligations.EncodeOfDecode : Prop :=
  ∀ (slot : Slot) (s rest : Bits) (i : Instr),
    decode slot s = .ok (i, rest) → encode i ++ rest = s ∧ i.slot = slot

/-- A few words written out bit by bit from R80 to R90. The spec marks as its own decision R82 (D21), R90 (D3). -/
def Obligations.WrittenOutWordsDecode : Prop :=
  decode .command [false, false, false, false, false, false, true, false] = .ok (.bwFlush, []) ∧
  decode .command [true, true, true, true, false, false, false, false] = .ok (.reset, []) ∧
  decode .header [true, false, false, false, false, false, false, false] = .ok (.hdrPos 0, []) ∧
  decode .runByte [true, false, false, false, false, true, true, false] = .ok (.run true 6, []) ∧
  decode (.countField 3) [false, true, false, false] = .ok (.posCount 3 2, [false]) ∧
  decode .audioControl (memBits [0x12, 0x34]) = .ok (.ac 0x12 0x34, [])

/-- R90: an operation begins with its code, and a byte that is not one of the nineteen codes is refused by name. The
spec marks as its own decision R90 (D3). -/
def Obligations.OperationCodes : Prop :=
  (∀ (i : Instr) (c : Byte), i.opCode = some c → ∃ operands, encode i = bitsMsb c.toNat 8 ++ operands) ∧
  ∀ (c : Byte) (rest : Bits),
    c ∉ ([0x00, 0x01, 0x02, 0x03, 0x10, 0x11, 0x12, 0x13, 0x20, 0x30, 0x40, 0x50, 0x60, 0x61, 0x70, 0x71, 0x72, 0x73,
        0xF0] : List Byte) →
      decode .command (byteBits c ++ rest) = .error (.unknownOperation c.toNat)

/-- R88: the fields of the stream elements: the method is bit 7 of the header byte, the value and the length are bit 7
and bits 6..0 of the run byte, count and index are `val_msb` of their bits, and the audio control is two bytes as they
are. -/
def Obligations.StreamElementFields : Prop :=
  (∀ (b : Byte) (rest : Bits), ∃ (r : BitVec 7), r.toNat = b.toNat % 128 ∧
    decode .header (byteBits b ++ rest) = .ok (if 128 ≤ b.toNat then .hdrPos r else .hdrRle r, rest) ∧
    decode .runByte (byteBits b ++ rest) = .ok (.run (decide (128 ≤ b.toNat)) r, rest)) ∧
  (∀ (f rest : Bits), decode (.countField f.length) (f ++ rest) = .ok (.posCount f.length (valMsb f), rest) ∧
    decode (.indexField f.length) (f ++ rest) = .ok (.posIndex f.length (valMsb f), rest)) ∧
  (∀ (x : Bool) (f : Bits), valMsb [] = 0 ∧ valMsb (x :: f) = x.toNat * 2 ^ f.length + valMsb f) ∧
  ∀ (a b : Byte) (rest : Bits), decode .audioControl (memBits [a, b] ++ rest) = .ok (.ac a b, rest)

/-- R84: the run byte of `(v, l)` is `128 * v + l`, and the decoder takes the value and the length out of it as they
stand. -/
def Obligations.RunByteFormat : Prop :=
  (∀ (v : Bool) (l : Nat), 1 ≤ l → l ≤ 127 → (runByte v l).toNat = 128 * v.toNat + l) ∧
  (∀ (v : Bool) (l : BitVec 7) (rest : Bits),
    decode .runByte (byteBits (runByte v l.toNat) ++ rest) = .ok (.run v l, rest)) ∧
  ∀ b : Byte, (topBit b).toNat = b.toNat / 128 ∧ (lowSeven b).toNat = b.toNat % 128

/-! ### bitstream_writer (40_bitstream_writer.md) -/

/-- R101: BW.CLEAR completes in every state with an empty writer, and with RESET is the only instruction that clears
BW.err. The spec marks as its own decision R101 (D6). -/
def Obligations.BwClearEmptiesWriter : Prop :=
  Instr.bwClear.opCode = some 0x00 ∧
  (∀ s : State, exec .bwClear s =
    .next ((s.withBw { acc := 0, nacc := 0, out := [], err := false }).withResult .ok)) ∧
  ∀ (i : Instr) (s t : State), exec i s = .next t → s.bw.err = true → t.bw.err = false → i = .bwClear ∨ i = .reset

/-- R102: the three refusals of BW.WRITE, in their order. The spec marks as its own decision R102 (D7). -/
def Obligations.BwWriteRefusals : Prop :=
  ∀ (s : State) (v n : Nat),
    (s.bw.err = true → exec (.bwWrite v n) s = .next (s.withResult (.fault .writerFaulted))) ∧
    (s.bw.err = false → n < 1 ∨ 32 < n →
      exec (.bwWrite v n) s = .next ((s.withBw { s.bw with err := true }).withResult (.fault .numBitsRange))) ∧
    (s.bw.err = false → 1 ≤ n → n ≤ 32 → 2 ^ n ≤ v →
      exec (.bwWrite v n) s = .next ((s.withBw { s.bw with err := true }).withResult (.fault .valueRange)))

/-- R103, in the closed form of R104: an accepted BW.WRITE appends the bits of `value` to the pending bits, most
significant first, moves each full group of eight to the end of BW.out, and appends at most four bytes. The spec marks
as its own inference R104. -/
def Obligations.BwWriteClosedForm : Prop :=
  ∀ (s : State) (v n : Nat), WriterInv s.bw → s.bw.err = false → 1 ≤ n → n ≤ 32 → v < 2 ^ n →
    let S := bitsMsb s.bw.acc s.bw.nacc ++ bitsMsb v n
    let q := (s.bw.nacc + n) / 8
    (Instr.bwWrite v n).opCode = some 0x01 ∧ q ≤ 4 ∧
    exec (.bwWrite v n) s = .next ((s.withBw
      { out := s.bw.out ++ (List.range q).map (fun j => BitVec.ofNat 8 (valMsb ((S.drop (8 * j)).take 8)))
        nacc := (s.bw.nacc + n) % 8
        acc := valMsb (S.drop (8 * q))
        err := false }).withResult .ok)

/-- R105: BW.FLUSH, faulted, with pending bits, and without; and a second flush changes nothing. The spec marks as its
own decision R105 (D8). -/
def Obligations.BwFlushPadsPendingBits : Prop :=
  Instr.bwFlush.opCode = some 0x02 ∧
  ∀ s : State,
    (s.bw.err = true → exec .bwFlush s = .next (s.withResult (.fault .writerFaulted))) ∧
    (s.bw.err = false → 0 < s.bw.nacc → exec .bwFlush s = .next ((s.withBw
      { out := s.bw.out ++ [BitVec.ofNat 8 (s.bw.acc * 2 ^ (8 - s.bw.nacc))], acc := 0, nacc := 0,
        err := false }).withResult .ok)) ∧
    (s.bw.err = false → s.bw.nacc = 0 → exec .bwFlush s = .next (s.withResult .ok)) ∧
    ∀ t, exec .bwFlush s = .next t → exec .bwFlush t = .next t

/-- R106: BW.GET_BYTES returns the completed bytes, never the pending bits, and changes nothing; on a faulted writer it
is refused. -/
def Obligations.BwGetBytesReturnsCompletedBytes : Prop :=
  Instr.bwGetBytes.opCode = some 0x03 ∧
  ∀ s : State,
    (s.bw.err = true → exec .bwGetBytes s = .next (s.withResult (.fault .writerFaulted))) ∧
    (s.bw.err = false → exec .bwGetBytes s = .next (s.withResult (.bytes s.bw.out)))

/-- R24: the invariant of BW holds at reset and after every instruction, and the bits BW holds are the bits it has
accepted, with the zero bits each flush inserts. The spec marks as its own inference R24. -/
def Obligations.WriterHoldsAcceptedBits : Prop :=
  WriterInv State.reset.bw ∧ writerBits State.reset.bw = [] ∧
  (∀ (i : Instr) (s t : State), WriterInv s.bw → exec i s = .next t → WriterInv t.bw) ∧
  (∀ (s t : State) (v n : Nat), WriterInv s.bw → exec (.bwWrite v n) s = .next t → t.result = some .ok →
    writerBits t.bw = writerBits s.bw ++ bitsMsb v n) ∧
  (∀ (s t : State), WriterInv s.bw → exec .bwFlush s = .next t → t.result = some .ok →
    writerBits t.bw = writerBits s.bw ++ List.replicate ((8 - s.bw.nacc) % 8) false)

/-- R227: the sticky writer fault. The spec marks as its own decision R227 (D7). -/
def Obligations.FaultedWriterStaysFaulted : Prop :=
  (∀ (s t : State) (v n : Nat), exec (.bwWrite v n) s = .next t →
    t.result = some (.fault .numBitsRange) ∨ t.result = some (.fault .valueRange) →
    t.bw = { s.bw with err := true }) ∧
  (∀ (i : Instr) (s : State), s.bw.err = true →
    (i = .bwFlush ∨ i = .bwGetBytes ∨ ∃ v n, i = .bwWrite v n) →
    exec i s = .next (s.withResult (.fault .writerFaulted))) ∧
  (∀ (i : Instr) (s t : State), s.bw.err = true → exec i s = .next t → i ≠ .bwClear → i ≠ .reset → t.bw = s.bw) ∧
  ∀ (i : Instr) (s t : State), exec i s = .next t → i = .bwClear ∨ i = .reset →
    t.bw = { acc := 0, nacc := 0, out := [], err := false }

/-- R108: the length and the bits of what a new writer gives for a list of accepted fields and one flush. The spec
marks as its own inference R108. -/
def Obligations.WriterLengthLaw : Prop :=
  ∀ (s : State) (fs : List (Nat × Nat)), s.bw = { acc := 0, nacc := 0, out := [], err := false } →
    (∀ f ∈ fs, 1 ≤ f.2 ∧ f.2 ≤ 32 ∧ f.1 < 2 ^ f.2) →
    ∃ t, execAll (fs.map (fun f => .bwWrite f.1 f.2) ++ [.bwFlush]) s = some t ∧
      t.bw.out.length = ((fs.map Prod.snd).sum + 7) / 8 ∧
      memBits t.bw.out = fs.flatMap (fun f => bitsMsb f.1 f.2) ++
        List.replicate (8 * t.bw.out.length - (fs.map Prod.snd).sum) false

/-- R109: fields written, flushed, moved to the reader and read back with their widths come back in order. The spec
marks as its own inference R109. -/
def Obligations.WriterReaderRoundTrip : Prop :=
  ∀ (s : State) (fs : List (Nat × Nat)), s.bw = { acc := 0, nacc := 0, out := [], err := false } →
    (∀ f ∈ fs, 1 ≤ f.2 ∧ f.2 ≤ 32 ∧ f.1 < 2 ^ f.2) →
    ∃ t b u v, execAll (fs.map (fun f => .bwWrite f.1 f.2) ++ [.bwFlush, .bwGetBytes]) s = some t ∧
      t.result = some (.bytes b) ∧
      execAll [.brLoad b] t = some u ∧
      resultsOf (fs.map fun f => .brRead f.2) u = fs.map (fun f => .value f.1) ∧
      execAll (fs.map fun f => .brRead f.2) u = some v ∧
      exec .brConsumed v = .next (v.withResult (.count t.bw.out.length))

/-! ### bitstream_reader (41_bitstream_reader.md) -/

/-- R121, R124, R125: BR.LOAD puts the cursor at the first bit; BR.POS and BR.CONSUMED report the cursor and the bytes
begun, and change nothing. The spec marks as its own decision R121 (D10), R124 (D13), R125 (D13). -/
def Obligations.BrLoadAndStatusReads : Prop :=
  ∀ (s : State) (b : Memory),
    (Instr.brLoad b).opCode = some 0x10 ∧ Instr.brPos.opCode = some 0x12 ∧ Instr.brConsumed.opCode = some 0x13 ∧
    exec (.brLoad b) s = .next ((s.withBr { buf := b, byteIndex := 0, bitIndex := 0 }).withResult .ok) ∧
    exec .brPos s = .next (s.withResult (.pos s.br.byteIndex s.br.bitIndex)) ∧
    ∃ k, exec .brConsumed s = .next (s.withResult (.count k)) ∧
      k = s.br.byteIndex + (if 0 < s.br.bitIndex then 1 else 0) ∧
      (ReaderInv s.br → k = (8 * s.br.byteIndex + s.br.bitIndex + 7) / 8 ∧ k ≤ s.br.buf.length)

/-- R122, R123, R128: a width outside 1..32 is refused and moves nothing; an accepted BR.READ is exhausted, and then
moves nothing, exactly when fewer bits remain; else it returns the next bits and moves the cursor by exactly its
width. The spec marks as its own decision R122 (D12), R123 (D11) and as its own inference R128. -/
def Obligations.BrReadClosedForm : Prop :=
  ∀ (s : State) (n : Nat),
    let rem := 8 * (s.br.buf.length - s.br.byteIndex) - s.br.bitIndex
    let t := 8 * s.br.byteIndex + s.br.bitIndex
    let v := valMsb (((memBits s.br.buf).drop t).take n)
    (Instr.brRead n).opCode = some 0x11 ∧
    (n < 1 ∨ 32 < n → exec (.brRead n) s = .next (s.withResult (.fault .numBitsRange))) ∧
    (1 ≤ n → n ≤ 32 → rem < n → exec (.brRead n) s = .next (s.withResult .exhausted)) ∧
    (ReaderInv s.br → 1 ≤ n → n ≤ 32 → n ≤ rem → v < 2 ^ n ∧ exec (.brRead n) s = .next ((s.withBr
      { buf := s.br.buf, byteIndex := (t + n) / 8, bitIndex := (t + n) % 8 }).withResult (.value v)))

/-- R26: the invariant of BR holds at reset and after every instruction, and the cursor never moves backwards over one
buffer. The spec marks as its own inference R26. -/
def Obligations.ReaderInvariantKept : Prop :=
  ReaderInv State.reset.br ∧
  (∀ (i : Instr) (s t : State), ReaderInv s.br → exec i s = .next t → ReaderInv t.br) ∧
  (∀ (i : Instr) (s t : State), exec i s = .next t → i ≠ .reset → (∀ b, i ≠ .brLoad b) →
    t.br.buf = s.br.buf ∧ readerPos s.br ≤ readerPos t.br) ∧
  ∀ r : Reader, ReaderInv r → remaining r + readerPos r = 8 * r.buf.length

/-- R126: after any instructions since a BR.LOAD the cursor is the sum of the widths of the reads that returned a
value, and a read is exhausted exactly when its width exceeds what is left. The spec marks as its own
inference R126. -/
def Obligations.ReaderNeverLosesPosition : Prop :=
  ∀ (s u : State) (b : Memory) (is : List Instr), (∀ i ∈ is, i ≠ .reset ∧ ∀ b', i ≠ .brLoad b') →
    execAll (.brLoad b :: is) s = some u →
    8 * u.br.byteIndex + u.br.bitIndex = bitsRead (.brLoad b :: is) s ∧
    bitsRead (.brLoad b :: is) s ≤ 8 * b.length ∧
    ∀ n, 1 ≤ n → n ≤ 32 →
      (exec (.brRead n) u = .next (u.withResult .exhausted) ↔ 8 * b.length - bitsRead (.brLoad b :: is) s < n)

/-! ### rle_encoder and rle_decoder (42_rle_codec.md) -/

/-- R141, with the properties of R142: the output of RLEE.ENCODE: no empty run, the runs expand to the mask, a run is
followed by one of the same value only if it has length 127, a stretch is split greedily from the left, and the number
of bytes is bounded. The spec marks as its own inference R142. -/
def Obligations.RleEncoderOutput : Prop :=
  ∀ m : Mask, (Instr.rleeEncode m).opCode = some 0x20 ∧ ∃ e : Memory,
    (∀ s : State, exec (.rleeEncode m) s = .next (s.withResult (.bytes e))) ∧
    (∀ b ∈ e, 1 ≤ (lowSeven b).toNat) ∧
    e.flatMap (fun b => List.replicate (lowSeven b).toNat (topBit b)) = m ∧
    (e.map fun b => (lowSeven b).toNat).sum = m.length ∧
    e.IsChain (fun b b' => topBit b = topBit b' → (lowSeven b).toNat = 127) ∧
    (∀ (n : Nat) (v : Bool) (rest : Mask) (s : State) (e' : Memory), 1 ≤ n → rest.head? ≠ some v →
      m = List.replicate n v ++ rest → exec (.rleeEncode rest) s = .next (s.withResult (.bytes e')) →
      e = List.replicate (n / 127) (runByte v 127) ++ (if n % 127 = 0 then [] else [runByte v (n % 127)]) ++ e') ∧
    (m = [] → e = []) ∧ (m.length + 126) / 127 ≤ e.length ∧ e.length ≤ m.length

/-- R146, R147, R148, R150: RLED.DECODE completes on any bytes. It reads bytes until the lengths of the runs read
reach `total`, or all of them; the mask is the runs in order, cut at `total`, and `false` where none reaches. The spec
marks as its own decision R146 (D16), R147 (D15), R148 (D14) and as its own inference R150. -/
def Obligations.RledDecodeClosedForm : Prop :=
  ∀ (b : Memory) (total : Nat), ∃ m k,
    (Instr.rledDecode b total).opCode = some 0x30 ∧
    (∀ s : State, exec (.rledDecode b total) s = .next (s.withResult (.mask m k))) ∧
    k ≤ b.length ∧
    (k = b.length ∨ total ≤ ((b.take k).map fun x => (lowSeven x).toNat).sum) ∧
    (∀ j, j < k → ((b.take j).map fun x => (lowSeven x).toNat).sum < total) ∧
    m = ((b.take k).flatMap (fun x => List.replicate (lowSeven x).toNat (topBit x)) ++
      List.replicate total false).take total

/-- R151: the RLE round trip, whatever follows the payload. The spec marks as its own inference R151. -/
def Obligations.RleRoundTrip : Prop :=
  ∀ (m : Mask) (e tail : Memory) (s t : State), exec (.rleeEncode m) s = .next t → t.result = some (.bytes e) →
    ∀ u : State, exec (.rledDecode (e ++ tail) m.length) u = .next (u.withResult (.mask m e.length))

/-! ### positional_index_encoder and positional_index_decoder (43_positional_codec.md) -/

/-- R162: an illegal width is refused by POSE.ENCODE and POSD.DECODE; inside FE and FD it never happens. The spec
marks as its own decision R162 (D17). -/
def Obligations.PositionalWidthRefused : Prop :=
  (∀ (s : State) (w n : Nat) (m : Mask) (b : Memory), w < 1 ∨ 32 < w →
    exec (.poseEncode m w) s = .next (s.withResult (.fault .numBitsRange)) ∧
    exec (.posdDecode b n w) s = .next (s.withResult (.fault .numBitsRange))) ∧
  ∀ c : Config, c.legal → 1 ≤ indexBits c ∧ indexBits c ≤ 32

/-- R163: when POSE.ENCODE overflows; with `index_bits = clog2(n)` exactly when `n` is a power of two and every
element is `true`. The spec marks as its own decision R163 (D17). -/
def Obligations.PoseOverflowExactly : Prop :=
  (∀ (m : Mask) (w : Nat) (s : State), 1 ≤ w → w ≤ 32 →
    (exec (.poseEncode m w) s = .next (s.withResult .overflow) ↔
      2 ^ w ≤ m.count true ∨ ∃ x, m[x]? = some true ∧ 2 ^ w ≤ x)) ∧
  ∀ (m : Mask) (s : State), 2 ≤ m.length → m.length ≤ 2 ^ 32 →
    (exec (.poseEncode m (clog2 m.length)) s = .next (s.withResult .overflow) ↔
      (∃ k, m.length = 2 ^ k) ∧ ∀ b ∈ m, b = true)

/-- R161, R164: what POSE.ENCODE writes where it does not overflow: the count, the ascending indices, each `w` bits,
and zero bits up to a whole byte. The spec marks as its own inference R164. -/
def Obligations.PoseEncodePayload : Prop :=
  ∀ (m : Mask) (w : Nat), 1 ≤ w → w ≤ 32 → m.count true < 2 ^ w → (∀ x, m[x]? = some true → x < 2 ^ w) →
    ∃ (out : Memory) (idx : List Nat),
      (Instr.poseEncode m w).opCode = some 0x40 ∧
      (∀ s : State, exec (.poseEncode m w) s = .next (s.withResult (.bytes out))) ∧
      idx.Pairwise (· < ·) ∧ (∀ x, x ∈ idx ↔ m[x]? = some true) ∧ idx.length = m.count true ∧
      memBits out = (idx.length :: idx).flatMap (fun v => bitsMsb v w) ++
        List.replicate (8 * out.length - (idx.length + 1) * w) false ∧
      out.length = ((idx.length + 1) * w + 7) / 8 ∧ 1 ≤ out.length

/-- R166, R167, R168: POSD.DECODE of a legal width completes on any bytes. Field `j` is the `j`-th group of `w` bits;
with `avail` complete fields in the buffer, `got` index fields are read, each in-range one sets its position, and the
bytes consumed are those of the fields read. The spec marks as its own decision R166 (D12) and as its own inference
R168. -/
def Obligations.PosdDecodeClosedForm : Prop :=
  ∀ (b : Memory) (total w : Nat), 1 ≤ w → w ≤ 32 →
    let field := fun j => valMsb (((memBits b).drop (w * j)).take w)
    let avail := 8 * b.length / w
    let got := min (field 0) (avail - 1)
    ∃ (m : Mask) (k : Nat), (∀ s : State, exec (.posdDecode b total w) s = .next (s.withResult (.mask m k))) ∧
      (Instr.posdDecode b total w).opCode = some 0x50 ∧
      m.length = total ∧
      (avail = 0 → k = 0 ∧ ∀ x : Nat, m[x]? ≠ some true) ∧
      (1 ≤ avail → k = ((got + 1) * w + 7) / 8 ∧
        ∀ x, m[x]? = some true ↔ x < total ∧ ∃ j, j < got ∧ field (j + 1) = x)

/-- R170: the positional round trip where POSE does not overflow, whatever follows the payload. The spec marks as its
own inference R170. -/
def Obligations.PositionalRoundTrip : Prop :=
  ∀ (m : Mask) (w : Nat) (e tail : Memory) (s t : State), 1 ≤ w → w ≤ 32 →
    exec (.poseEncode m w) s = .next t → t.result = some (.bytes e) →
    ∀ u : State, exec (.posdDecode (e ++ tail) m.length w) u = .next (u.withResult (.mask m e.length))

/-- R171: the empty delta, encoded and decoded, changes no canvas. The spec marks as its own inference R171. -/
def Obligations.EmptyDelta : Prop :=
  ∀ (n w : Nat) (s : State), 1 ≤ w → w ≤ 32 →
    exec (.poseEncode (List.replicate n false) w) s =
      .next (s.withResult (.bytes (List.replicate ((w + 7) / 8) 0))) ∧
    exec (.posdDecode (List.replicate ((w + 7) / 8) 0) n w) s =
      .next (s.withResult (.mask (List.replicate n false) ((w + 7) / 8))) ∧
    ∀ canvas : Mask, canvas.length = n → xorMask canvas (List.replicate n false) = canvas

/-! ### frame_encoder_adaptive_selector (44_frame_encoder.md) -/

/-- R181, R183: FE.RESET; and FE.ENCODE_FRAME refuses operands of the wrong size, the audio control first, and changes
nothing. The spec marks as its own decision R181 (D30), R183 (D19). -/
def Obligations.FeResetAndRefusals : Prop :=
  ∀ (s : State) (ac : Memory) (px : Mask),
    Instr.feReset.opCode = some 0x60 ∧
    exec .feReset s = .next ((s.withPrev (List.replicate s.cfg.totalPixels false)).withResult .ok) ∧
    (ac.length ≠ 2 → exec (.feEncodeFrame ac px) s = .next (s.withResult (.fault .acLength))) ∧
    (ac.length = 2 → px.length ≠ s.cfg.totalPixels →
      exec (.feEncodeFrame ac px) s = .next (s.withResult (.fault .pixelsLength)))

/-- R184, R186: the record of an accepted frame: the audio control, the header byte of the method selected, and the
payload RLEE or POSE gives for its delta mask; RLE where it is not longer; and the reference frame becomes the operand
itself. Where POSE has no payload only RLE is left. -/
def Obligations.FeEncodeFrameRecord : Prop :=
  ∀ (s : State) (ac : Memory) (px : Mask) (rle : Memory) (p : Result), s.cfg.legal → ac.length = 2 →
    px.length = s.cfg.totalPixels → exec (.rleeEncode (List.zipWith xor px s.fe.prev)) s = .next (s.withResult (.bytes rle)) →
    exec (.poseEncode (List.zipWith xor px s.fe.prev) (indexBits s.cfg)) s = .next (s.withResult p) →
    (Instr.feEncodeFrame ac px).opCode = some 0x61 ∧
    ∃ h payload, exec (.feEncodeFrame ac px) s =
        .next ((s.withPrev px).withResult (.record (ac ++ h :: payload))) ∧
      ((h = 0x00 ∧ payload = rle) ∨ (h = 0x80 ∧ p = .bytes payload)) ∧
      ∀ pos, p = .bytes pos → h = if rle.length ≤ pos.length then 0x00 else 0x80

/-- R187 (a), (b), (e): every record of FE begins with the audio control, has one of the two header bytes, and a
payload of at least one byte that is no longer than either candidate. The spec marks as its own inference R187. -/
def Obligations.FeRecordShape : Prop :=
  ∀ (s : State) (ac : Memory) (px : Mask), StateInv s → ac.length = 2 → px.length = s.cfg.totalPixels →
    ∃ h payload, exec (.feEncodeFrame ac px) s =
        .next ((s.withPrev px).withResult (.record (ac ++ h :: payload))) ∧
      (h = 0x00 ∨ h = 0x80) ∧ 1 ≤ payload.length ∧
      ∀ b : Memory,
        exec (.rleeEncode (List.zipWith xor px s.fe.prev)) s = .next (s.withResult (.bytes b)) ∨
        exec (.poseEncode (List.zipWith xor px s.fe.prev) (indexBits s.cfg)) s = .next (s.withResult (.bytes b)) →
        payload.length ≤ b.length

/-! ### frame_decoder_with_delta_reconstruction (45_frame_decoder.md) -/

/-- R201: FD.START. The spec marks as its own decision R201 (D30). -/
def Obligations.FdStartBeginsStream : Prop :=
  ∀ (s : State) (b : Memory), (Instr.fdStart b).opCode = some 0x70 ∧
    ∃ t, exec (.fdStart b) s = .next t ∧ t.result = some .ok ∧
      t.fd = { stream := b, pos := 0, canvas := List.replicate s.cfg.totalPixels false, rsvdSeen := false } ∧
      t.cfg = s.cfg ∧ t.bw = s.bw ∧ t.br = s.br ∧ t.fe = s.fe ∧ t.port = s.port

/-- R205: FD.STEP returns `End`, and changes no field, exactly when fewer than three bytes remain; and then every
later FD.STEP does so again, whatever operations are issued between, until the next FD.START (or RESET). The spec
marks as its own decision R205 (D22). -/
def Obligations.FdStepEndOfStream : Prop :=
  ∀ s : State, ∃ t, exec .fdStep s = .next t ∧
    (t.result = some .endOfStream ↔ s.fd.stream.length - s.fd.pos < 3) ∧
    (t.result = some .endOfStream →
      t.fd = s.fd ∧ t.cfg = s.cfg ∧ t.bw = s.bw ∧ t.br = s.br ∧ t.fe = s.fe ∧ t.port = s.port ∧
      ∀ (is : List Instr) (u : State), (∀ i ∈ is, i.slot = .command ∧ i ≠ .reset ∧ ∀ b, i ≠ .fdStart b) →
        execAll is t = some u →
        ∃ v, exec .fdStep u = .next v ∧ v.result = some .endOfStream ∧ v.fd = s.fd)

/-- R204: FD.STEP decodes at most one record. With fewer than three bytes left the result is `End`. On a record whose
bytes are `a b h` and then `rest`, the mask and the count are those that the decoder selected by the top bit of `h`
gives for the whole rest of the stream (R206), and the frame, the canvas, the cursor and the flag follow from them
(R207 to R209). The spec marks as its own decision R206 (D23), R207 (D21) and as its own inference R206. -/
def Obligations.FdStepDeliversRecord : Prop :=
  ∀ s : State, s.cfg.legal → Instr.fdStep.opCode = some 0x71 ∧
    (s.fd.stream.length - s.fd.pos < 3 → ∃ t, exec .fdStep s = .next t ∧ t.result = some .endOfStream ∧ t.fd = s.fd) ∧
    ∀ (a b h : Byte) (rest : Memory), s.fd.stream.drop s.fd.pos = a :: b :: h :: rest →
      ∃ (m : Mask) (k : Nat) (t : State),
        (if h.toNat < 128 then exec (.rledDecode rest s.cfg.totalPixels) s
          else exec (.posdDecode rest s.cfg.totalPixels (indexBits s.cfg)) s) = .next (s.withResult (.mask m k)) ∧
        exec .fdStep s = .next t ∧
        t.fd = { stream := s.fd.stream, pos := s.fd.pos + 3 + k, canvas := List.zipWith xor s.fd.canvas m,
                 rsvdSeen := s.fd.rsvdSeen || decide (h.toNat % 128 ≠ 0) } ∧
        t.result = some (.frame { ac := [a, b], canvas := List.zipWith xor s.fd.canvas m }) ∧
        m.length = s.cfg.totalPixels ∧ k ≤ rest.length ∧ t.fd.pos ≤ t.fd.stream.length ∧
        t.cfg = s.cfg ∧ t.bw = s.bw ∧ t.br = s.br ∧ t.fe = s.fe ∧ t.port = s.port

/-- R82, R207: two streams that differ only in the reserved bits of the header at the cursor give the same frame and
the same decoder, but for the sticky flag, which a non-zero reserved bit sets. The spec marks as its own decision R82
(D21), R207 (D21). -/
def Obligations.ReservedHeaderBitsIgnored : Prop :=
  ∀ (s s' t t' : State) (a b h h' : Byte) (rest before : Memory),
    s.cfg = s'.cfg → s.fd.canvas = s'.fd.canvas → s.fd.rsvdSeen = s'.fd.rsvdSeen →
    s.fd.pos = before.length → s'.fd.pos = before.length →
    s.fd.stream = before ++ a :: b :: h :: rest → s'.fd.stream = before ++ a :: b :: h' :: rest →
    h.toNat / 128 = h'.toNat / 128 →
    exec .fdStep s = .next t → exec .fdStep s' = .next t' →
    t.result = t'.result ∧ t.fd.canvas = t'.fd.canvas ∧ t.fd.pos = t'.fd.pos ∧
      t.fd.rsvdSeen = (s.fd.rsvdSeen || decide (h.toNat % 128 ≠ 0))

/-- R33: FD.rsvd_seen is sticky: only FD.START and RESET clear it, and no operation but FD.STEP and FD.RUN (and the
element that completes a record, log 8) sets it. The spec marks as its own decision R33 (D7, D21). -/
def Obligations.ReservedFlagIsSticky : Prop :=
  ∀ (i : Instr) (s t : State), exec i s = .next t →
    (s.fd.rsvdSeen = true → t.fd.rsvdSeen = false → i = .reset ∨ ∃ b, i = .fdStart b) ∧
    (s.fd.rsvdSeen = false → t.fd.rsvdSeen = true → i = .fdStep ∨ i = .fdRun ∨ i.slot ≠ .command)

/-- R210: FD.RUN is FD.STEP repeated until `End`. The spec marks as its own decision R210 (D24). -/
def Obligations.FdRunIsRepeatedStep : Prop :=
  Instr.fdRun.opCode = some 0x72 ∧
  ∀ s : State, ∃ (t u v : State) (fs : List Frame),
    exec .fdRun s = .next t ∧ t.result = some (.frames fs) ∧
    execAll (List.replicate fs.length .fdStep) s = some u ∧
    resultsOf (List.replicate fs.length .fdStep) s = fs.map Result.frame ∧
    exec .fdStep u = .next v ∧ v.result = some .endOfStream ∧ v.fd = t.fd ∧
    fs.length ≤ s.fd.stream.length / 3 ∧
    t.cfg = s.cfg ∧ t.bw = s.bw ∧ t.br = s.br ∧ t.fe = s.fe ∧ t.port = s.port

/-- R211: FD.STATUS. The spec marks as its own decision R211 (D21). -/
def Obligations.FdStatusReports : Prop :=
  ∀ s : State, Instr.fdStatus.opCode = some 0x73 ∧
    exec .fdStatus s = .next (s.withResult (.status s.fd.pos s.fd.stream.length s.fd.rsvdSeen))

/-- R213: what a block encodes from FE.RESET, a block of the same configuration decodes, frame by frame. The spec
marks as its own inference R213. -/
def Obligations.EndToEndLossless : Prop :=
  ∀ (s d : State) (fs : List (Memory × Mask)), s.cfg.legal → d.cfg = s.cfg →
    (∀ f ∈ fs, f.1.length = 2 ∧ f.2.length = s.cfg.totalPixels) →
    ∃ (t : State) (recs : List Memory),
      execAll (.feReset :: fs.map (fun f => .feEncodeFrame f.1 f.2)) s = some t ∧
      resultsOf (.feReset :: fs.map (fun f => .feEncodeFrame f.1 f.2)) s = .ok :: recs.map Result.record ∧
      ∃ u : State, execAll [.fdStart recs.flatten, .fdRun] d = some u ∧
        u.result = some (.frames (fs.map fun f => { ac := f.1, canvas := f.2 })) ∧
        u.fd.pos = recs.flatten.length

/-! ### Errors (60_exceptions.md) -/

/-- R221, R231: RLED, POSD of a legal width and every operation of FD answer a result that is no fault, in every
state; FE.ENCODE_FRAME can fault only for the length of an operand. The spec marks as its own inference R221, R231. -/
def Obligations.NoStreamIsFatal : Prop :=
  (∀ (i : Instr) (s : State),
    ((∃ b n, i = .rledDecode b n) ∨ (∃ b n w, i = .posdDecode b n w ∧ 1 ≤ w ∧ w ≤ 32) ∨ (∃ b, i = .fdStart b) ∨
      i = .fdStep ∨ i = .fdRun ∨ i = .fdStatus) →
    ∃ t, exec i s = .next t ∧ ∀ code, t.result ≠ some (.fault code)) ∧
  ∀ (s t : State) (ac : Memory) (px : Mask) (code : FaultCode), exec (.feEncodeFrame ac px) s = .next t →
    t.result = some (.fault code) → code = .acLength ∨ code = .pixelsLength

/-- R226, R234: the whole effect of a fault, for every instruction: the result is the fault in place of the normal
one, at most BW.err is set, and nothing else changes. The spec marks as its own decision R226 (D7, D12, D17, D19),
R234 (D7). -/
def Obligations.FaultsArePrecise : Prop :=
  ∀ (i : Instr) (s t : State) (code : FaultCode), i.slot = .command ∨ s.result = none → exec i s = .next t →
    t.result = some (.fault code) →
    t = s.withResult (.fault code) ∨
      ((∃ v n, i = .bwWrite v n) ∧ (code = .numBitsRange ∨ code = .valueRange) ∧
        t = (s.withBw { s.bw with err := true }).withResult (.fault code))

/-! ### The element-wise FD.STEP: the seven stream rows of the table (model's choice, log 8) -/

/-- AC and the two header elements at their place. Where they stand and what they leave in the model's own `scan` is the
model's choice (log 8). -/
def Obligations.HeadElements : Prop :=
  ∀ (s : State) (a b : Byte) (r : BitVec 7),
    (s.scan = .recordHead → exec (.ac a b) s = .next (s.withScan (.headerByte a b))) ∧
    (s.scan = .headerByte a b →
      exec (.hdrPos r) s = .next (s.withScan (.countField a b (decide (r ≠ 0))
        { buf := s.fd.stream.drop (s.fd.pos + 3), byteIndex := 0, bitIndex := 0 })) ∧
      (s.cfg.legal → s.fd.pos + 3 < s.fd.stream.length →
        exec (.hdrRle r) s = .next (s.withScan (.runs a b (decide (r ≠ 0)) [] 0))) ∧
      (s.cfg.legal → s.fd.stream.length ≤ s.fd.pos + 3 →
        ∃ t, exec (.hdrRle r) s = .next t ∧ t.fd.pos = s.fd.pos + 3 ∧
          t.fd.canvas = List.zipWith xor s.fd.canvas (List.replicate s.cfg.totalPixels false) ∧ t.scan = .idle))

/-- RUN at its place (R146 to R148 give the positions it writes): another run is awaited, or the record is delivered.
The `scan` it leaves is the model's choice (log 8). The spec marks as its own decision R146 (D16), R147 (D15), R148
(D14). -/
def Obligations.RunElementFillsMask : Prop :=
  ∀ (s : State) (a b : Byte) (rsv v : Bool) (l : BitVec 7) (written : Mask) (k : Nat),
    s.scan = .runs a b rsv written k → written.length < s.cfg.totalPixels →
    let w' := written ++ List.replicate (min l.toNat (s.cfg.totalPixels - written.length)) v
    (w'.length < s.cfg.totalPixels ∧ s.fd.pos + 3 + (k + 1) < s.fd.stream.length →
      exec (.run v l) s = .next (s.withScan (.runs a b rsv w' (k + 1)))) ∧
    (w'.length = s.cfg.totalPixels ∨ s.fd.stream.length ≤ s.fd.pos + 3 + (k + 1) →
      ∃ t, exec (.run v l) s = .next t ∧ t.scan = .idle ∧
        t.fd = { stream := s.fd.stream, pos := s.fd.pos + 3 + (k + 1),
                 canvas := List.zipWith xor s.fd.canvas (w' ++ List.replicate (s.cfg.totalPixels - w'.length) false),
                 rsvdSeen := s.fd.rsvdSeen || rsv } ∧
        t.result = some (.frame { ac := [a, b], canvas := t.fd.canvas }))

/-- POS.COUNT, POS.INDEX and POS.PAD at their place (R166 to R168 give what they set). The `scan` they leave is the
model's choice (log 8). The spec marks as its own decision R166 (D12) and as its own inference R168. -/
def Obligations.PositionalElements : Prop :=
  ∀ (s : State) (a b : Byte) (rsv : Bool) (rd : Reader), ReaderInv rd →
    let w := indexBits s.cfg
    let rd' : Reader := { buf := rd.buf, byteIndex := (readerPos rd + w) / 8, bitIndex := (readerPos rd + w) % 8 }
    (∀ count, s.scan = .countField a b rsv rd → w ≤ remaining rd →
      exec (.posCount w count) s =
        .next (s.withScan (.indexFields a b rsv rd' count (List.replicate s.cfg.totalPixels false)))) ∧
    (∀ index left mask, s.scan = .indexFields a b rsv rd (left + 1) mask → w ≤ remaining rd →
      exec (.posIndex w index) s = .next (s.withScan (.indexFields a b rsv rd' left
        (if index < s.cfg.totalPixels then mask.set index true else mask)))) ∧
    (s.scan = .countField a b rsv rd → remaining rd < w → rd.bitIndex = 0 →
      ∃ t, exec (.posPad []) s = .next t ∧ t.scan = .idle ∧
        t.fd = { stream := s.fd.stream, pos := s.fd.pos + 3 + rd.byteIndex,
                 canvas := List.zipWith xor s.fd.canvas (List.replicate s.cfg.totalPixels false),
                 rsvdSeen := s.fd.rsvdSeen || rsv } ∧
        t.result = some (.frame { ac := [a, b], canvas := t.fd.canvas })) ∧
    (∀ left mask (bits : Bits), s.scan = .indexFields a b rsv rd left mask → left = 0 ∨ remaining rd < w →
      bits.length = (8 - rd.bitIndex) % 8 →
      ∃ t, exec (.posPad bits) s = .next t ∧ t.scan = .idle ∧
        t.fd = { stream := s.fd.stream, pos := s.fd.pos + 3 + (readerPos rd + 7) / 8,
                 canvas := List.zipWith xor s.fd.canvas mask, rsvdSeen := s.fd.rsvdSeen || rsv } ∧
        t.result = some (.frame { ac := [a, b], canvas := t.fd.canvas }))

/-- A stream element where a record has none is refused and never runs (log 9): here, with no FD.STEP under way. -/
def Obligations.ElementOutOfPlaceRefused : Prop :=
  ∀ (i : Instr) (s : State), i.slot ≠ .command → s.scan = .idle → exec i s = .refused .elementOutOfPlace

/-- Running a record element by element is FD.STEP: from a record head with no element read yet, after some number of
steps the machine is in exactly the state FD.STEP leaves (log 8). -/
def Obligations.FdStepIsElementWalk : Prop :=
  ∀ s : State, StateInv s → s.scan = .recordHead →
    ∃ n t, stepMany n s = some t ∧ exec .fdStep s = .next t

/-- While an FD.STEP is run element by element every step is a next state: the element the place asks for is there, and
is in place (log 8). -/
def Obligations.ElementStepsProceed : Prop :=
  ∀ s : State, StateInv s → s.scan ≠ .idle → ∃ t, step s = .next t

/-! ### Steps and the invariant -/

/-- A step runs the decoded instruction: an operation, taken off the port (R20), or, while an FD.STEP is run element
by element, the stream element at its place. The port and the places are the model's (log 3, log 8). The spec marks as
its own decision R20 (D1). -/
def Obligations.StepRunsDecodedInstruction : Prop :=
  (∀ (s : State) (i : Instr) (rest : Bits), s.scan = .idle → decode .command s.port = .ok (i, rest) →
    step s = exec i { s with port := rest }) ∧
  ∀ (s : State) (i : Instr) (rest : Bits), s.scan ≠ .idle →
    (s.scan = .recordHead → 3 ≤ s.fd.stream.length - s.fd.pos) →
    decode (fetchPlace s).1 (fetchPlace s).2 = .ok (i, rest) → step s = exec i s

/-- An operation the host puts on the port in its encoding is run by the next step; with nothing on the port there is
no step (R20, log 6). The spec marks as its own decision R20 (D1). -/
def Obligations.StepRunsIssuedOperation : Prop :=
  (∀ (s : State) (i : Instr) (rest : Bits), s.scan = .idle → i.slot = .command → s.port = encode i ++ rest →
    step s = exec i { s with port := rest }) ∧
  ∀ s : State, s.scan = .idle → s.port = [] → step s = .refused .awaitingHost

/-- Every step keeps the invariant of the block (R24, R26, R28, R29). The spec marks as its own decision R29 (D21) and
as its own inference R24, R26. -/
def Obligations.StepKeepsInvariant : Prop :=
  ∀ s t : State, StateInv s → step s = .next t → StateInv t

/-- The invariant holds of every legal block just instantiated, and at reset. -/
def Obligations.ResetMeetsInvariant : Prop :=
  (∀ (c : Config) (s : State), State.instantiate c = some s → StateInv s) ∧ StateInv State.reset
end

