-- ==== Sys2Proof/Laws/Bits.lean ====
section
/-! SUPPORT. Bits, numbers and bytes: `bitsMsb` and `valMsb` are inverse (00_scope.md R11), and the bit string of a
byte buffer determines it (20_memory.md R50, R52). -/

namespace Sys2Proof

@[simp] theorem bitsMsb_length (v n : Nat) : (bitsMsb v n).length = n := by
  induction n with
  | zero => rfl
  | succ n ih => simp [bitsMsb, ih]

@[simp] theorem byteBits_length (b : Byte) : (byteBits b).length = 8 := bitsMsb_length _ _

@[simp] theorem memBits_nil : memBits [] = [] := rfl

@[simp] theorem memBits_cons (b : Byte) (m : Memory) : memBits (b :: m) = byteBits b ++ memBits m := rfl

@[simp] theorem memBits_append (m m' : Memory) : memBits (m ++ m') = memBits m ++ memBits m' := by
  simp [memBits]

@[simp] theorem memBits_length (m : Memory) : (memBits m).length = 8 * m.length := by
  induction m with
  | nil => rfl
  | cons b m ih => simp [ih]; omega

/-- Dropping whole bytes of the bit string is dropping bytes of the buffer. -/
theorem memBits_drop (m : Memory) (a : Nat) : (memBits m).drop (8 * a) = memBits (m.drop a) := by
  induction m generalizing a with
  | nil => simp
  | cons b m ih =>
    cases a with
    | zero => simp
    | succ a =>
      rw [memBits_cons, show 8 * (a + 1) = (byteBits b).length + 8 * a by simp; omega, ← List.drop_drop,
        List.drop_left, ih, List.drop_succ_cons]

theorem pushLow_eq (v : Nat) (b : Bool) : pushLow v b = 2 * v + b.toNat := rfl

theorem foldl_pushLow (s : Bits) (v : Nat) : s.foldl pushLow v = v * 2 ^ s.length + valMsb s := by
  induction s generalizing v with
  | nil => simp [valMsb]
  | cons b s ih =>
    have e : valMsb (b :: s) = List.foldl pushLow (pushLow 0 b) s := rfl
    rw [List.foldl_cons, ih, e, ih (pushLow 0 b)]
    simp [pushLow_eq, Nat.pow_succ]
    ring

@[simp] theorem valMsb_nil : valMsb [] = 0 := rfl

theorem valMsb_cons (b : Bool) (s : Bits) : valMsb (b :: s) = b.toNat * 2 ^ s.length + valMsb s := by
  rw [valMsb, List.foldl_cons, foldl_pushLow]
  simp [pushLow_eq]

theorem valMsb_append (s t : Bits) : valMsb (s ++ t) = valMsb s * 2 ^ t.length + valMsb t := by
  rw [valMsb, List.foldl_append, ← valMsb, foldl_pushLow]

/-- The number of a bit string fits its length. -/
theorem valMsb_lt (s : Bits) : valMsb s < 2 ^ s.length := by
  induction s with
  | nil => simp
  | cons b s ih =>
    rw [valMsb_cons, List.length_cons, Nat.pow_succ]
    cases b <;> simp <;> omega

theorem bitsMsb_mod (v n : Nat) : valMsb (bitsMsb v n) = v % 2 ^ n := by
  induction n with
  | zero => simp [bitsMsb, Nat.mod_one]
  | succ n ih =>
    rw [bitsMsb, valMsb_cons, bitsMsb_length, ih, Nat.mod_pow_succ, Nat.toNat_testBit]
    ring

/-- `val_msb(bits_msb(v, n)) = v` (R11). -/
theorem valMsb_bitsMsb {v n : Nat} (h : v < 2 ^ n) : valMsb (bitsMsb v n) = v := by
  rw [bitsMsb_mod, Nat.mod_eq_of_lt h]

theorem bitsMsb_add_mul (v n k : Nat) : bitsMsb (k * 2 ^ n + v) n = bitsMsb v n := by
  suffices H : ∀ j ≤ n, bitsMsb (k * 2 ^ n + v) j = bitsMsb v j from H n le_rfl
  intro j hj
  induction j with
  | zero => rfl
  | succ j ih =>
    have hb : (k * 2 ^ n + v).testBit j = v.testBit j := by
      have e : (k * 2 ^ n + v) % 2 ^ n = v % 2 ^ n := Nat.mul_add_mod' k (2 ^ n) v
      have l : ∀ x : Nat, x.testBit j = (x % 2 ^ n).testBit j := fun x => by
        rw [Nat.testBit_mod_two_pow]; simp [show j < n by omega]
      rw [l, e, ← l]
    rw [bitsMsb, bitsMsb, hb, ih (by omega)]

/-- `bits_msb(val_msb(s), len(s)) = s` (R11). -/
theorem bitsMsb_valMsb (s : Bits) : bitsMsb (valMsb s) s.length = s := by
  induction s with
  | nil => rfl
  | cons b s ih =>
    have hlt := valMsb_lt s
    rw [List.length_cons, bitsMsb, valMsb_cons, bitsMsb_add_mul, ih]
    congr 1
    cases b <;> simp [Nat.testBit_lt_two_pow hlt, Nat.testBit_two_pow_add_eq]

/-- The bits of a number of `m + n` bits are those of its high part and those of its low part. -/
theorem bitsMsb_append (a v m n : Nat) (h : v < 2 ^ n) :
    bitsMsb (a * 2 ^ n + v) (m + n) = bitsMsb a m ++ bitsMsb v n := by
  induction m with
  | zero => simpa [bitsMsb] using bitsMsb_add_mul v n a
  | succ m ih =>
    have hb : (a * 2 ^ n + v).testBit (m + n) = a.testBit m := by
      rw [mul_comm, Nat.testBit_two_pow_mul_add _ h]
      simp
    rw [show m + 1 + n = (m + n) + 1 by omega, bitsMsb, bitsMsb, hb, ih]
    rfl

/-- Appending one bit on the low side. -/
theorem bitsMsb_pushLow (a n : Nat) (b : Bool) : bitsMsb (pushLow a b) (n + 1) = bitsMsb a n ++ [b] := by
  have h := bitsMsb_append a b.toNat n 1 (by cases b <;> decide)
  have e : bitsMsb b.toNat 1 = [b] := by cases b <;> rfl
  rw [e, Nat.pow_one] at h
  rw [pushLow_eq, Nat.mul_comm, h]

/-- A byte is assembled from its own bits (R52). -/
theorem byteBits_inv (b : Byte) : BitVec.ofNat 8 (valMsb (byteBits b)) = b := by
  rw [byteBits, valMsb_bitsMsb b.isLt, BitVec.ofNat_toNat, BitVec.setWidth_eq]

/-- The bits of the byte assembled from eight bits are those bits (R52). -/
theorem byteBits_ofBits (s : Bits) (h : s.length = 8) : byteBits (BitVec.ofNat 8 (valMsb s)) = s := by
  have hlt : valMsb s < 2 ^ 8 := h ▸ valMsb_lt s
  rw [byteBits, BitVec.toNat_ofNat, Nat.mod_eq_of_lt hlt, ← h, bitsMsb_valMsb]

/-- Eight bits and more assemble to a byte and the bytes of the rest. -/
theorem bitsToBytes_append (s t : Bits) (h : s.length = 8) :
    bitsToBytes (s ++ t) = BitVec.ofNat 8 (valMsb s) :: bitsToBytes t := by
  match s, h with
  | [_, _, _, _, _, _, _, _], _ => rfl

/-- The bytes of the bit string of a buffer are the buffer (R50). -/
theorem bitsToBytes_memBits (m : Memory) : bitsToBytes (memBits m) = m := by
  induction m with
  | nil => rfl
  | cons b m ih => rw [memBits_cons, bitsToBytes_append _ _ (byteBits_length b), byteBits_inv, ih]

/-- Two buffers with the same bits are the same. -/
theorem memBits_injective {m m' : Memory} (h : memBits m = memBits m') : m = m' := by
  rw [← bitsToBytes_memBits m, h, bitsToBytes_memBits]

end Sys2Proof
end

