-- ==== Sys2Proof/Laws/Masks.lean ====
section
/-! SUPPORT. Boolean sequences: exclusive or, the blank mask, the ascending list of the `true` positions
(00_scope.md R12). -/

namespace Sys2Proof.Machine

open Sys2Proof

@[simp] theorem blankMask_length (n : Nat) : (blankMask n).length = n := by simp [blankMask]

@[simp] theorem xorMask_length (a b : Mask) : (xorMask a b).length = min a.length b.length := by simp [xorMask]

/-- A mask that is all `false` changes nothing (R209). -/
theorem xorMask_blank (a : Mask) : xorMask a (blankMask a.length) = a := by
  induction a with
  | nil => rfl
  | cons b a ih =>
    have h : xorMask (b :: a) (blankMask (a.length + 1)) = xor b false :: xorMask a (blankMask a.length) := rfl
    rw [List.length_cons, h, ih, Bool.xor_false]

/-- XOR with the reference and then with the delta gives the frame back (R213). -/
theorem xorMask_cancel {a b : Mask} (h : a.length = b.length) : xorMask b (xorMask a b) = a := by
  induction a generalizing b with
  | nil =>
    cases b with
    | nil => rfl
    | cons c b => cases h
  | cons c a ih =>
    cases b with
    | nil => cases h
    | cons d b =>
      have e : xorMask (d :: b) (xorMask (c :: a) (d :: b)) = xor d (xor c d) :: xorMask b (xorMask a b) := rfl
      rw [e, ih (by simpa using h)]
      cases c <;> cases d <;> rfl

/-- The listed indices are the positions that are `true` (R12). -/
theorem mem_onesFrom (m : Mask) (start x : Nat) :
    x ∈ onesFrom start m ↔ ∃ i, m[i]? = some true ∧ x = start + i := by
  induction m generalizing start with
  | nil => simp [onesFrom]
  | cons b m ih =>
    have hs : (∃ i, (b :: m)[i]? = some true ∧ x = start + i) ↔
        (b = true ∧ x = start) ∨ ∃ i, m[i]? = some true ∧ x = start + 1 + i := by
      constructor
      · rintro ⟨i, hi, rfl⟩
        cases i with
        | zero => exact .inl ⟨by simpa using hi, rfl⟩
        | succ i => exact .inr ⟨i, by simpa using hi, by omega⟩
      · rintro (⟨hb, rfl⟩ | ⟨i, hi, rfl⟩)
        · exact ⟨0, by simpa using hb, rfl⟩
        · exact ⟨i + 1, by simpa using hi, by omega⟩
    rw [hs, onesFrom]
    cases b <;> simp [ih]

theorem mem_ones (m : Mask) (x : Nat) : x ∈ ones m ↔ m[x]? = some true := by
  rw [ones, mem_onesFrom]
  simp

theorem onesFrom_ge (m : Mask) (start x : Nat) (h : x ∈ onesFrom start m) : start ≤ x := by
  obtain ⟨i, -, rfl⟩ := (mem_onesFrom m start x).mp h
  exact Nat.le_add_right _ _

/-- The listed indices rise strictly (R161). -/
theorem ones_ascending (m : Mask) : (ones m).Pairwise (· < ·) := by
  suffices H : ∀ start, (onesFrom start m).Pairwise (· < ·) from H 0
  induction m with
  | nil => intro start; simp [onesFrom]
  | cons b m ih =>
    intro start
    rw [onesFrom]
    split
    · exact List.pairwise_cons.mpr ⟨fun x hx => onesFrom_ge m (start + 1) x hx, ih _⟩
    · exact ih _

/-- The number of listed indices is the number of `true` elements (R12). -/
theorem ones_length (m : Mask) : (ones m).length = m.count true := by
  suffices H : ∀ start, (onesFrom start m).length = m.count true from H 0
  induction m with
  | nil => intro start; rfl
  | cons b m ih =>
    intro start
    rw [onesFrom]
    cases b <;> simp [ih]

@[simp] theorem setIndex_length (total : Nat) (m : Mask) (x : Nat) : (setIndex total m x).length = m.length := by
  unfold setIndex; split <;> simp

/-- Setting an index is an assignment: the position is `true` afterwards and no other moves (R167). -/
theorem setIndex_get (total : Nat) (m : Mask) (x i : Nat) (hm : m.length = total) :
    (setIndex total m x)[i]? = some true ↔ m[i]? = some true ∨ (i = x ∧ x < total) := by
  unfold setIndex
  split
  · rename_i h
    rw [List.getElem?_set]
    split
    · rename_i e
      subst e
      simp [hm, h]
    · rename_i e
      constructor
      · exact .inl
      · rintro (h' | ⟨h', -⟩)
        · exact h'
        · exact absurd h'.symm e
  · rename_i h
    constructor
    · exact .inl
    · rintro (h' | ⟨-, h'⟩)
      · exact h'
      · exact absurd h' h

end Sys2Proof.Machine
end

