-- ==== Sys2Proof/Laws/Reader.lean ====
section
/-! SUPPORT. What one bit and one field do to a reader (10_state.md R26, 41_bitstream_reader.md R123). -/

namespace Sys2Proof.Machine

open Sys2Proof

@[simp] theorem loadReader_buf (m : Memory) : (loadReader m).buf = m := rfl
@[simp] theorem loadReader_byteIndex (m : Memory) : (loadReader m).byteIndex = 0 := rfl
@[simp] theorem loadReader_bitIndex (m : Memory) : (loadReader m).bitIndex = 0 := rfl
@[simp] theorem loadReader_bits (m : Memory) : readerBits (loadReader m) = memBits m := rfl

theorem loadReader_inv (m : Memory) : ReaderInv (loadReader m) := ⟨Nat.zero_le _, Nat.zero_le _, fun _ => rfl⟩

@[simp] theorem advanceBit_buf (r : Reader) : (advanceBit r).buf = r.buf := by
  unfold advanceBit; split <;> rfl

/-- The cursor moves by one bit, whatever the reader (R26). -/
@[simp] theorem advanceBit_pos (r : Reader) : readerPos (advanceBit r) = readerPos r + 1 := by
  unfold advanceBit readerPos
  split <;> simp <;> omega

/-- The bits that remain are counted by `rem` (R26). -/
theorem readerBits_length (r : Reader) : (readerBits r).length = remaining r := by
  simp [readerBits, remaining]; omega

/-- While bits remain, the next one is the current bit, and the rest is what remains after it (R25, R123). -/
theorem advanceBit_bits {r : Reader} (h : ReaderInv r) (hrem : 0 < remaining r) :
    ReaderInv (advanceBit r) ∧ readerBits r = currentBit r :: readerBits (advanceBit r) := by
  obtain ⟨hL, hb, hend⟩ := h
  have hlt : r.byteIndex < r.buf.length := by
    unfold remaining at hrem
    omega
  have hget : (memBits r.buf)[8 * r.byteIndex + r.bitIndex]? = some (currentBit r) := by
    have hd : memBits (r.buf.drop r.byteIndex) =
        byteBits r.buf[r.byteIndex] ++ memBits (r.buf.drop (r.byteIndex + 1)) := by
      rw [List.drop_eq_getElem_cons hlt, memBits_cons]
    have hi : ∀ (v n j : Nat), j < n → (bitsMsb v n)[j]? = some (v.testBit (n - 1 - j)) := by
      intro v n
      induction n with
      | zero => omega
      | succ n ih =>
        intro j hj
        cases j with
        | zero => simp [bitsMsb]
        | succ j =>
          rw [bitsMsb, List.getElem?_cons_succ, ih j (by omega)]
          congr 2
          omega
    rw [← List.getElem?_drop, memBits_drop, hd, List.getElem?_append_left (by simp; omega), byteBits,
      hi _ _ _ (by omega)]
    simp [currentBit, readByte, List.getElem?_eq_getElem hlt]
  refine ⟨?_, ?_⟩
  · unfold advanceBit
    split
    · exact ⟨by simp; omega, by simp, fun _ => rfl⟩
    · exact ⟨hL, by simp; omega, fun e => by simp at e; omega⟩
  · have hp := advanceBit_pos r
    unfold readerPos at hp
    unfold readerBits
    rw [advanceBit_buf, hp]
    obtain ⟨hi, he⟩ := List.getElem?_eq_some_iff.mp hget
    rw [List.drop_eq_getElem_cons hi, he]

@[simp] theorem readBits_buf (n : Nat) (r : Reader) (v : Nat) : (readBits n r v).2.buf = r.buf := by
  induction n generalizing r v with
  | zero => rfl
  | succ n ih => rw [readBits, ih, advanceBit_buf]

/-- The loop of BR.READ moves the cursor by exactly its width, whatever the reader (R123). -/
@[simp] theorem readBits_pos (n : Nat) (r : Reader) (v : Nat) : readerPos (readBits n r v).2 = readerPos r + n := by
  induction n generalizing r v with
  | zero => rfl
  | succ n ih => rw [readBits, ih, advanceBit_pos]; omega

/-- The value of the loop of BR.READ, and what remains after it (R123, R128). -/
theorem readBits_bits {n : Nat} {r : Reader} (v : Nat) (h : ReaderInv r) (hn : n ≤ remaining r) :
    ReaderInv (readBits n r v).2 ∧ readerBits (readBits n r v).2 = (readerBits r).drop n ∧
      (readBits n r v).1 = v * 2 ^ n + valMsb ((readerBits r).take n) := by
  induction n generalizing r v with
  | zero => simpa [readBits] using h
  | succ n ih =>
    obtain ⟨h1, e1⟩ := advanceBit_bits h (by omega)
    have hl := readerBits_length r
    have hl' := readerBits_length (advanceBit r)
    rw [e1, List.length_cons] at hl
    obtain ⟨h2, e2, e3⟩ := ih (pushLow v (currentBit r)) h1 (by omega)
    refine ⟨h2, by rw [readBits, e2, e1, List.drop_succ_cons], ?_⟩
    rw [readBits, e3, e1, List.take_succ_cons, valMsb_cons, List.length_take, pushLow_eq]
    rw [show min n (readerBits (advanceBit r)).length = n by omega, Nat.pow_succ]
    ring

/-- A reader whose cursor is at stream bit `t` (R128). -/
theorem readerPos_cursor {r : Reader} (h : ReaderInv r) :
    r.byteIndex = readerPos r / 8 ∧ r.bitIndex = readerPos r % 8 := by
  obtain ⟨-, hb, -⟩ := h
  unfold readerPos
  omega

/-- `consumed` is the cursor rounded up to whole bytes (R125). -/
theorem consumed_eq {r : Reader} (h : ReaderInv r) : consumed r = (readerPos r + 7) / 8 := by
  obtain ⟨-, hb, -⟩ := h
  unfold consumed readerPos
  split <;> omega

/-- `consumed` never passes the end of the buffer (R125). -/
theorem consumed_le {r : Reader} (h : ReaderInv r) : consumed r ≤ r.buf.length := by
  obtain ⟨hL, hb, hend⟩ := h
  unfold consumed
  split <;> omega

/-- Everything a read of a field can do (R123). -/
theorem readField_cases {r : Reader} {n : Nat} (h : ReaderInv r) :
    (remaining r < n ∧ readField r n = none) ∨
      (n ≤ remaining r ∧ ∃ r', readField r n = some (valMsb ((readerBits r).take n), r') ∧ ReaderInv r' ∧
        r'.buf = r.buf ∧ readerPos r' = readerPos r + n ∧ readerBits r' = (readerBits r).drop n) := by
  unfold readField
  by_cases hn : remaining r < n
  · exact .inl ⟨hn, by simp [hn]⟩
  · obtain ⟨h1, h2, h3⟩ := readBits_bits 0 h (Nat.le_of_not_lt hn)
    refine .inr ⟨Nat.le_of_not_lt hn, (readBits n r 0).2, ?_, h1, readBits_buf _ _ _, readBits_pos _ _ _, h2⟩
    rw [Nat.zero_mul, Nat.zero_add] at h3
    rw [if_neg hn, ← h3]

end Sys2Proof.Machine
end

