-- ==== Sys2Proof/Laws/Codec.lean ====
section
/-! SUPPORT. What the two payload decoders can answer: a mask of the size asked for, and no more bytes than there are
(42_rle_codec.md R146 to R150, 43_positional_codec.md R166 to R168). -/

namespace Sys2Proof.Machine

open Sys2Proof

theorem runByte_fields (v : Bool) {l : Nat} (h : l < 128) :
    topBit (runByte v l) = v ∧ (lowSeven (runByte v l)).toNat = l := by
  unfold topBit lowSeven runByte
  constructor
  · rw [BitVec.getLsbD_ofNat]
    have : (128 * v.toNat + l).testBit 7 = v := by
      have h' := Nat.testBit_two_pow_mul_add v.toNat (i := 7) (b := l) h 7
      simp only [Nat.reducePow] at h'
      rw [h']
      cases v <;> rfl
    simp [this]
  · cases v <;> simp <;> omega

@[simp] theorem fillRun_length (total : Nat) (written : Mask) (v : Bool) (l : Nat) :
    (fillRun total written v l).length = written.length + min l (total - written.length) := by
  simp [fillRun]

/-- A run never writes outside the mask (R148). -/
theorem fillRun_le {total : Nat} {written : Mask} (v : Bool) (l : Nat) (h : written.length ≤ total) :
    (fillRun total written v l).length ≤ total := by
  rw [fillRun_length]; omega

/-- The loop of RLED.DECODE stays inside the mask and reads no more bytes than there are (R146, R149). -/
theorem rledLoop_bounds (total : Nat) (bytes : Memory) (written : Mask) (k : Nat) (h : written.length ≤ total) :
    (rledLoop total bytes written k).1.length ≤ total ∧ k ≤ (rledLoop total bytes written k).2 ∧
      (rledLoop total bytes written k).2 ≤ k + bytes.length := by
  induction bytes generalizing written k with
  | nil => simpa [rledLoop] using h
  | cons b bytes ih =>
    rw [rledLoop]
    split
    · obtain ⟨h1, h2, h3⟩ := ih (fillRun total written (topBit b) (lowSeven b).toNat) (k + 1) (fillRun_le _ _ h)
      simp only [List.length_cons]
      exact ⟨h1, by omega, by omega⟩
    · exact ⟨h, le_rfl, by simp⟩

theorem padMask_length {total : Nat} {written : Mask} (h : written.length ≤ total) :
    (padMask total written).length = total := by
  simp [padMask]; omega

/-- RLED.DECODE gives a mask of the size asked for and reads no more bytes than there are. -/
theorem rledScan_bounds (bytes : Memory) (total : Nat) :
    (rledScan bytes total).1.length = total ∧ (rledScan bytes total).2 ≤ bytes.length := by
  obtain ⟨h1, -, h3⟩ := rledLoop_bounds total bytes [] 0 (Nat.zero_le _)
  exact ⟨padMask_length h1, by simpa [rledScan] using h3⟩

/-- The index loop of POSD.DECODE keeps the size of the mask and the reader inside its buffer (R167). -/
theorem posdLoop_bounds (total w c : Nat) {r : Reader} (m : Mask) (h : ReaderInv r) :
    (posdLoop total w c r m).1.length = m.length ∧ ReaderInv (posdLoop total w c r m).2 ∧
      (posdLoop total w c r m).2.buf = r.buf := by
  induction c generalizing r m with
  | zero => exact ⟨rfl, h, rfl⟩
  | succ c ih =>
    rw [posdLoop]
    rcases readField_cases (n := w) h with ⟨-, e⟩ | ⟨-, r', e, h', hb, -, -⟩
    · rw [e]
      exact ⟨rfl, h, rfl⟩
    · rw [e]
      obtain ⟨h1, h2, h3⟩ := ih (setIndex total m (valMsb ((readerBits r).take w))) h'
      exact ⟨by simpa using h1, h2, h3.trans hb⟩

/-- POSD.DECODE gives a mask of the size asked for and consumes no more bytes than there are. -/
theorem posdScan_bounds (bytes : Memory) (total w : Nat) :
    (posdScan bytes total w).1.length = total ∧ (posdScan bytes total w).2 ≤ bytes.length := by
  unfold posdScan
  rcases readField_cases (n := w) (loadReader_inv bytes) with ⟨-, e⟩ | ⟨-, r', e, h', hb, -, -⟩
  · rw [e]
    exact ⟨blankMask_length total, Nat.zero_le _⟩
  · rw [e]
    obtain ⟨h1, h2, h3⟩ := posdLoop_bounds total w (valMsb ((readerBits (loadReader bytes)).take w))
      (blankMask total) h'
    refine ⟨by simpa using h1, ?_⟩
    have := consumed_le h2
    rw [h3, hb] at this
    exact this

end Sys2Proof.Machine
end

