-- ==== Sys2Proof/Laws/Memory.lean ====
section
/-! SUPPORT. The byte memories: the read of one byte, the append, and the canonical form of the cells (20_memory.md
R58, R59; 10_state.md R36). And the two ways an operation ends (00_scope.md R13, 60_exceptions.md R234). -/

namespace Sys2Proof.Machine

open Sys2Proof

@[simp] theorem complete_eq (r : Result) (s : State) : complete r s = .next (s.withResult r) := rfl

@[simp] theorem raiseFault_eq (code : FaultCode) (s : State) :
    raiseFault code s = .next (s.withResult (.fault code)) := rfl

/-- An append leaves every byte that was there. -/
theorem readByte_append {m : Memory} {a : Nat} (more : Memory) (h : a < m.length) :
    readByte (m ++ more) a = readByte m a := List.getElem?_append_left h

/-- The byte just appended is read back at the old length. -/
theorem readByte_appendByte (m : Memory) (b : Byte) : readByte (appendByte m b) m.length = some b := by
  simp [readByte, appendByte]

/-- There is no byte at or beyond the length (R59). -/
theorem readByte_none {m : Memory} {a : Nat} : readByte m a = none ↔ m.length ≤ a := by
  simp [readByte]

@[simp] theorem memCells_length (m : Memory) : (memCells m).length = m.length := by simp [memCells]

/-- The cells of every memory have the canonical form: it holds at reset, and the append and the replacement of a whole
buffer, the only two writes (R13, R64), keep it. -/
theorem memory_wf (m : Memory) : Memory.wf m := by
  simp only [Memory.wf, memCellsWf, memCells_length]
  simp [memCells, List.map_map, Function.comp_def, List.zipIdx_eq_zip_range', List.range_eq_range']
  rw [List.map_snd_zip]
  simp

/-- The cells say what each byte is. -/
theorem memCells_read (m : Memory) (a : Nat) (b : Byte) : (a, b) ∈ memCells m ↔ readByte m a = some b := by
  simp [memCells, readByte, List.mem_zipIdx_iff_getElem?]

end Sys2Proof.Machine
end

