-- ==== Sys2Proof/Laws/State.lean ====
section
/-! SUPPORT. One lemma for each field after each update of the state, and the fields of the state after reset. -/

namespace Sys2Proof.Machine

open Sys2Proof

@[simp] theorem State.withBw_cfg (s : State) (w : Writer) : (s.withBw w).cfg = s.cfg := rfl
@[simp] theorem State.withBw_bw (s : State) (w : Writer) : (s.withBw w).bw = w := rfl
@[simp] theorem State.withBw_br (s : State) (w : Writer) : (s.withBw w).br = s.br := rfl
@[simp] theorem State.withBw_fe (s : State) (w : Writer) : (s.withBw w).fe = s.fe := rfl
@[simp] theorem State.withBw_fd (s : State) (w : Writer) : (s.withBw w).fd = s.fd := rfl
@[simp] theorem State.withBw_port (s : State) (w : Writer) : (s.withBw w).port = s.port := rfl
@[simp] theorem State.withBw_scan (s : State) (w : Writer) : (s.withBw w).scan = s.scan := rfl
@[simp] theorem State.withBw_result (s : State) (w : Writer) : (s.withBw w).result = s.result := rfl

@[simp] theorem State.withBr_cfg (s : State) (r : Reader) : (s.withBr r).cfg = s.cfg := rfl
@[simp] theorem State.withBr_bw (s : State) (r : Reader) : (s.withBr r).bw = s.bw := rfl
@[simp] theorem State.withBr_br (s : State) (r : Reader) : (s.withBr r).br = r := rfl
@[simp] theorem State.withBr_fe (s : State) (r : Reader) : (s.withBr r).fe = s.fe := rfl
@[simp] theorem State.withBr_fd (s : State) (r : Reader) : (s.withBr r).fd = s.fd := rfl
@[simp] theorem State.withBr_port (s : State) (r : Reader) : (s.withBr r).port = s.port := rfl
@[simp] theorem State.withBr_scan (s : State) (r : Reader) : (s.withBr r).scan = s.scan := rfl
@[simp] theorem State.withBr_result (s : State) (r : Reader) : (s.withBr r).result = s.result := rfl

@[simp] theorem State.withPrev_cfg (s : State) (m : Mask) : (s.withPrev m).cfg = s.cfg := rfl
@[simp] theorem State.withPrev_bw (s : State) (m : Mask) : (s.withPrev m).bw = s.bw := rfl
@[simp] theorem State.withPrev_br (s : State) (m : Mask) : (s.withPrev m).br = s.br := rfl
@[simp] theorem State.withPrev_fe (s : State) (m : Mask) : (s.withPrev m).fe = { prev := m } := rfl
@[simp] theorem State.withPrev_fd (s : State) (m : Mask) : (s.withPrev m).fd = s.fd := rfl
@[simp] theorem State.withPrev_port (s : State) (m : Mask) : (s.withPrev m).port = s.port := rfl
@[simp] theorem State.withPrev_scan (s : State) (m : Mask) : (s.withPrev m).scan = s.scan := rfl
@[simp] theorem State.withPrev_result (s : State) (m : Mask) : (s.withPrev m).result = s.result := rfl

@[simp] theorem State.withFd_cfg (s : State) (d : Decoder) : (s.withFd d).cfg = s.cfg := rfl
@[simp] theorem State.withFd_bw (s : State) (d : Decoder) : (s.withFd d).bw = s.bw := rfl
@[simp] theorem State.withFd_br (s : State) (d : Decoder) : (s.withFd d).br = s.br := rfl
@[simp] theorem State.withFd_fe (s : State) (d : Decoder) : (s.withFd d).fe = s.fe := rfl
@[simp] theorem State.withFd_fd (s : State) (d : Decoder) : (s.withFd d).fd = d := rfl
@[simp] theorem State.withFd_port (s : State) (d : Decoder) : (s.withFd d).port = s.port := rfl
@[simp] theorem State.withFd_scan (s : State) (d : Decoder) : (s.withFd d).scan = s.scan := rfl
@[simp] theorem State.withFd_result (s : State) (d : Decoder) : (s.withFd d).result = s.result := rfl

@[simp] theorem State.withPort_cfg (s : State) (p : Bits) : (s.withPort p).cfg = s.cfg := rfl
@[simp] theorem State.withPort_bw (s : State) (p : Bits) : (s.withPort p).bw = s.bw := rfl
@[simp] theorem State.withPort_br (s : State) (p : Bits) : (s.withPort p).br = s.br := rfl
@[simp] theorem State.withPort_fe (s : State) (p : Bits) : (s.withPort p).fe = s.fe := rfl
@[simp] theorem State.withPort_fd (s : State) (p : Bits) : (s.withPort p).fd = s.fd := rfl
@[simp] theorem State.withPort_port (s : State) (p : Bits) : (s.withPort p).port = p := rfl
@[simp] theorem State.withPort_scan (s : State) (p : Bits) : (s.withPort p).scan = s.scan := rfl
@[simp] theorem State.withPort_result (s : State) (p : Bits) : (s.withPort p).result = s.result := rfl

@[simp] theorem State.withScan_cfg (s : State) (x : Scan) : (s.withScan x).cfg = s.cfg := rfl
@[simp] theorem State.withScan_bw (s : State) (x : Scan) : (s.withScan x).bw = s.bw := rfl
@[simp] theorem State.withScan_br (s : State) (x : Scan) : (s.withScan x).br = s.br := rfl
@[simp] theorem State.withScan_fe (s : State) (x : Scan) : (s.withScan x).fe = s.fe := rfl
@[simp] theorem State.withScan_fd (s : State) (x : Scan) : (s.withScan x).fd = s.fd := rfl
@[simp] theorem State.withScan_port (s : State) (x : Scan) : (s.withScan x).port = s.port := rfl
@[simp] theorem State.withScan_scan (s : State) (x : Scan) : (s.withScan x).scan = x := rfl
@[simp] theorem State.withScan_result (s : State) (x : Scan) : (s.withScan x).result = s.result := rfl

@[simp] theorem State.withResult_cfg (s : State) (r : Result) : (s.withResult r).cfg = s.cfg := rfl
@[simp] theorem State.withResult_bw (s : State) (r : Result) : (s.withResult r).bw = s.bw := rfl
@[simp] theorem State.withResult_br (s : State) (r : Result) : (s.withResult r).br = s.br := rfl
@[simp] theorem State.withResult_fe (s : State) (r : Result) : (s.withResult r).fe = s.fe := rfl
@[simp] theorem State.withResult_fd (s : State) (r : Result) : (s.withResult r).fd = s.fd := rfl
@[simp] theorem State.withResult_port (s : State) (r : Result) : (s.withResult r).port = s.port := rfl
@[simp] theorem State.withResult_scan (s : State) (r : Result) : (s.withResult r).scan = s.scan := rfl
@[simp] theorem State.withResult_result (s : State) (r : Result) : (s.withResult r).result = some r := rfl

@[simp] theorem State.ofConfig_cfg (c : Config) : (State.ofConfig c).cfg = c := rfl
@[simp] theorem State.ofConfig_bw (c : Config) : (State.ofConfig c).bw = ⟨0, 0, [], false⟩ := rfl
@[simp] theorem State.ofConfig_br (c : Config) : (State.ofConfig c).br = ⟨[], 0, 0⟩ := rfl
@[simp] theorem State.ofConfig_fe (c : Config) : (State.ofConfig c).fe = ⟨List.replicate c.totalPixels false⟩ := rfl
@[simp] theorem State.ofConfig_fd (c : Config) : (State.ofConfig c).fd = ⟨[], 0, List.replicate c.totalPixels false, false⟩ := rfl
@[simp] theorem State.ofConfig_port (c : Config) : (State.ofConfig c).port = [] := rfl
@[simp] theorem State.ofConfig_scan (c : Config) : (State.ofConfig c).scan = .idle := rfl
@[simp] theorem State.ofConfig_result (c : Config) : (State.ofConfig c).result = none := rfl

/-- The configuration of the block after reset is legal (R7). -/
theorem config_block_legal : Config.block.legal := by
  unfold Config.block
  split
  · assumption
  · decide

end Sys2Proof.Machine
end

