-- ==== Sys2Proof/Laws/Decoder.lean ====
section
/-! SUPPORT. What the frame decoder can do with one record (45_frame_decoder.md R204 to R209), and with the rest of a
stream (R210). -/

namespace Sys2Proof.Machine

open Sys2Proof

@[simp] theorem deliver_stream (d : Decoder) (m : Mask) (k : Nat) (r : Bool) : (deliver d m k r).stream = d.stream := rfl
@[simp] theorem deliver_pos (d : Decoder) (m : Mask) (k : Nat) (r : Bool) : (deliver d m k r).pos = d.pos + 3 + k := rfl
@[simp] theorem deliver_canvas (d : Decoder) (m : Mask) (k : Nat) (r : Bool) :
    (deliver d m k r).canvas = xorMask d.canvas m := rfl
@[simp] theorem deliver_rsvdSeen (d : Decoder) (m : Mask) (k : Nat) (r : Bool) :
    (deliver d m k r).rsvdSeen = (d.rsvdSeen || r) := rfl

/-- A payload gives a mask of the block's size and consumes no more bytes than there are (R206, R208). -/
theorem decodePayload_bounds (c : Config) (h : Byte) (rest : Memory) :
    (decodePayload c h rest).1.length = c.totalPixels ∧ (decodePayload c h rest).2 ≤ rest.length := by
  unfold decodePayload
  split
  · exact posdScan_bounds _ _ _
  · exact rledScan_bounds _ _

/-- Delivering a frame keeps the cursor in the stream and the canvas at its size (R29, R208, R209). -/
theorem deliver_inv {c : Config} {d : Decoder} {m : Mask} {k : Nat} (r : Bool) (h : DecoderInv c d)
    (hm : m.length = c.totalPixels) (hk : d.pos + 3 + k ≤ d.stream.length) : DecoderInv c (deliver d m k r) := by
  refine ⟨hk, ?_⟩
  rw [deliver_canvas, xorMask_length, h.2, hm, Nat.min_self]

/-- Everything an FD.STEP can do: `End` where fewer than three bytes remain, else the record is delivered (R204,
R205). -/
theorem decodeRecord_cases (c : Config) (d : Decoder) :
    (d.stream.length - d.pos < 3 ∧ decodeRecord c d = none) ∨
      ∃ a b h rest, d.stream.drop d.pos = a :: b :: h :: rest ∧ d.pos + 3 + rest.length = d.stream.length ∧
        decodeRecord c d = some
          (⟨[a, b], xorMask d.canvas (decodePayload c h rest).1⟩,
            deliver d (decodePayload c h rest).1 (decodePayload c h rest).2 (reservedSet (lowSeven h))) := by
  have hl : (d.stream.drop d.pos).length = d.stream.length - d.pos := List.length_drop
  unfold decodeRecord restFrom
  split
  · rename_i a b h rest e
    rw [e] at hl
    simp only [List.length_cons] at hl
    exact .inr ⟨a, b, h, rest, e, by omega, rfl⟩
  · rename_i hne
    refine .inl ⟨?_, rfl⟩
    match hd : d.stream.drop d.pos, hl with
    | [], hl => simp at hl; omega
    | [_], hl => simp at hl; omega
    | [_, _], hl => simp at hl; omega
    | a :: b :: h :: rest, _ => exact absurd hd (hne a b h rest)

/-- A delivered record moves the cursor by at least three bytes and keeps the stream (R210). -/
theorem decodeRecord_advances {c : Config} {d d' : Decoder} {f : Frame} (h : decodeRecord c d = some (f, d')) :
    d'.stream = d.stream ∧ d.pos + 3 ≤ d'.pos ∧ d'.pos ≤ d.stream.length := by
  rcases decodeRecord_cases c d with ⟨-, e⟩ | ⟨a, b, hd, rest, -, hr, e⟩
  · rw [h] at e; cases e
  · rw [h] at e
    simp only [Option.some.injEq, Prod.mk.injEq] at e
    obtain ⟨-, rfl⟩ := e
    have := (decodePayload_bounds c hd rest).2
    exact ⟨rfl, by simp, by simp; omega⟩

/-- A delivered record keeps the invariant of the decoder (R29). -/
theorem decodeRecord_inv {c : Config} {d d' : Decoder} {f : Frame} (hi : DecoderInv c d)
    (h : decodeRecord c d = some (f, d')) : DecoderInv c d' := by
  rcases decodeRecord_cases c d with ⟨-, e⟩ | ⟨a, b, hd, rest, -, hr, e⟩
  · rw [h] at e; cases e
  · rw [h] at e
    simp only [Option.some.injEq, Prod.mk.injEq] at e
    obtain ⟨-, rfl⟩ := e
    have := decodePayload_bounds c hd rest
    exact deliver_inv _ hi this.1 (by omega)

/-- With enough fuel the run ends where FD.STEP answers `End`, after at most a third as many frames as there are
bytes (R210). -/
theorem decodeAll_spec (c : Config) (fuel : Nat) (d : Decoder) (h : d.stream.length - d.pos ≤ 3 * fuel + 2) :
    decodeRecord c (decodeAll c fuel d).2 = none ∧ (decodeAll c fuel d).2.stream = d.stream ∧
      3 * (decodeAll c fuel d).1.length ≤ d.stream.length - d.pos := by
  induction fuel generalizing d with
  | zero =>
    refine ⟨?_, rfl, Nat.zero_le _⟩
    rcases decodeRecord_cases c d with ⟨-, e⟩ | ⟨a, b, hd, rest, -, hr, e⟩
    · exact e
    · omega
  | succ fuel ih =>
    rw [decodeAll]
    cases e : decodeRecord c d with
    | none => exact ⟨e, rfl, Nat.zero_le _⟩
    | some p =>
      obtain ⟨f, d'⟩ := p
      obtain ⟨hs, h1, h2⟩ := decodeRecord_advances e
      obtain ⟨i1, i2, i3⟩ := ih d' (by rw [hs]; omega)
      refine ⟨i1, i2.trans hs, ?_⟩
      rw [hs] at i3
      simp only [List.length_cons]
      omega

end Sys2Proof.Machine
end

