-- ==== Sys2Proof/Laws/Fetch.lean ====
section
/-! SUPPORT. What the element-wise FD.STEP and a fetch can do: each shared operation once, with everything it can
answer. -/

namespace Sys2Proof.Machine

open Sys2Proof

theorem payloadRest_length (d : Decoder) : (payloadRest d).length = d.stream.length - (d.pos + 3) := by
  simp only [payloadRest, restFrom, List.length_drop]
  rfl

@[simp] theorem finishRecord_eq (a b : Byte) (r : Bool) (m : Mask) (k : Nat) (s : State) :
    finishRecord a b r m k s =
      .next (((s.withFd (deliver s.fd m k r)).withScan .idle).withResult (.frame ⟨[a, b], xorMask s.fd.canvas m⟩)) := rfl

/-- After a run byte either another one is wanted and there is one, or the record is delivered (R146, R150). -/
theorem nextRun_cases (a b : Byte) (r : Bool) (written : Mask) (k : Nat) (s : State) :
    (written.length < s.cfg.totalPixels ∧ k < (payloadRest s.fd).length ∧
        nextRun a b r written k s = .next (s.withScan (.runs a b r written k))) ∨
      ((s.cfg.totalPixels ≤ written.length ∨ (payloadRest s.fd).length ≤ k) ∧
        nextRun a b r written k s = finishRecord a b r (padMask s.cfg.totalPixels written) k s) := by
  unfold nextRun
  by_cases h : written.length < s.cfg.totalPixels ∧ k < (payloadRest s.fd).length
  · exact .inl ⟨h.1, h.2, if_pos h⟩
  · exact .inr ⟨by omega, if_neg h⟩

theorem noRecordHead_iff (d : Decoder) : noRecordHead d = true ↔ d.stream.length - d.pos < 3 := by
  rw [noRecordHead, decide_eq_true_iff]
  exact Iff.rfl

@[simp] theorem afterFetch_idle (s : State) (rest : Bits) (h : s.scan = .idle) : afterFetch s rest = s.withPort rest := by
  simp [afterFetch, h]

theorem afterFetch_walking (s : State) (rest : Bits) (h : s.scan ≠ .idle) : afterFetch s rest = s := by
  unfold afterFetch
  split
  · contradiction
  · rfl

/-- Everything a fetch can do. -/
theorem fetch_cases (s : State) :
    (s.scan = .idle ∧ s.port = [] ∧ fetch s = .answer (.refused .awaitingHost)) ∨
      (s.scan = .recordHead ∧ s.fd.stream.length - s.fd.pos < 3 ∧
        fetch s = .answer (.next ((s.withScan .idle).withResult .endOfStream))) ∨
      (∃ i rest, decode (fetchPlace s).1 (fetchPlace s).2 = .ok (i, rest) ∧ fetch s = .instr i (afterFetch s rest)) ∨
      (∃ why, decode (fetchPlace s).1 (fetchPlace s).2 = .error why ∧ fetch s = .answer (.refused (.undecodable why))) := by
  unfold fetch
  by_cases h1 : s.scan = .idle ∧ s.port = []
  · exact .inl ⟨h1.1, h1.2, if_pos h1⟩
  rw [if_neg h1]
  by_cases h2 : s.scan = .recordHead ∧ noRecordHead s.fd = true
  · exact .inr (.inl ⟨h2.1, (noRecordHead_iff _).mp h2.2, if_pos h2⟩)
  rw [if_neg h2]
  cases hd : decode (fetchPlace s).1 (fetchPlace s).2 with
  | ok p => exact .inr (.inr (.inl ⟨p.1, p.2, rfl, rfl⟩))
  | error why => exact .inr (.inr (.inr ⟨why, rfl, rfl⟩))

/-- Where a step ends in a next state, an instruction was decoded and run, or an element-wise FD.STEP found no record
head left. -/
theorem step_cases {s t : State} (h : step s = .next t) :
    (s.scan = .recordHead ∧ s.fd.stream.length - s.fd.pos < 3 ∧ t = (s.withScan .idle).withResult .endOfStream) ∨
      ∃ i rest, decode (fetchPlace s).1 (fetchPlace s).2 = .ok (i, rest) ∧ exec i (afterFetch s rest) = .next t := by
  unfold step at h
  rcases fetch_cases s with ⟨-, -, e⟩ | ⟨h1, h2, e⟩ | ⟨i, rest, hd, e⟩ | ⟨why, -, e⟩
  · rw [e] at h; cases h
  · rw [e] at h; cases h; exact .inl ⟨h1, h2, rfl⟩
  · rw [e] at h; exact .inr ⟨i, rest, hd, h⟩
  · rw [e] at h; cases h

end Sys2Proof.Machine
end

