-- ==== Sys2Proof/Laws/PerInstr.lean ====
section
/-! SUPPORT. A statement about every instruction as syntax, one lemma per constructor: an operation's encoding is its
operation code of 30_encoding.md R90, most significant bit first, and then its operands. -/

namespace Sys2Proof.Laws.OpCodeFirst

open Sys2Proof

/-- The first eight bits of an operation are its code. -/
def Statement (i : Instr) : Prop := ∀ c, i.opCode = some c → ∃ operands, encode i = byteBits c ++ operands

theorem bwClear : Statement (.bwClear) := by
  rintro _ ⟨⟩
  exact ⟨[], rfl⟩

theorem bwWrite (v n : Nat) : Statement (.bwWrite v n) := by
  rintro _ ⟨⟩
  exact ⟨encodeNat v ++ encodeNat n, rfl⟩

theorem bwFlush : Statement (.bwFlush) := by
  rintro _ ⟨⟩
  exact ⟨[], rfl⟩

theorem bwGetBytes : Statement (.bwGetBytes) := by
  rintro _ ⟨⟩
  exact ⟨[], rfl⟩

theorem brLoad (b : Memory) : Statement (.brLoad b) := by
  rintro _ ⟨⟩
  exact ⟨encodeBytes b, rfl⟩

theorem brRead (n : Nat) : Statement (.brRead n) := by
  rintro _ ⟨⟩
  exact ⟨encodeNat n, rfl⟩

theorem brPos : Statement (.brPos) := by
  rintro _ ⟨⟩
  exact ⟨[], rfl⟩

theorem brConsumed : Statement (.brConsumed) := by
  rintro _ ⟨⟩
  exact ⟨[], rfl⟩

theorem rleeEncode (m : Mask) : Statement (.rleeEncode m) := by
  rintro _ ⟨⟩
  exact ⟨encodeMask m, rfl⟩

theorem rledDecode (b : Memory) (n : Nat) : Statement (.rledDecode b n) := by
  rintro _ ⟨⟩
  exact ⟨encodeBytes b ++ encodeNat n, rfl⟩

theorem poseEncode (m : Mask) (w : Nat) : Statement (.poseEncode m w) := by
  rintro _ ⟨⟩
  exact ⟨encodeMask m ++ encodeNat w, rfl⟩

theorem posdDecode (b : Memory) (n w : Nat) : Statement (.posdDecode b n w) := by
  rintro _ ⟨⟩
  exact ⟨encodeBytes b ++ (encodeNat n ++ encodeNat w), rfl⟩

theorem feReset : Statement (.feReset) := by
  rintro _ ⟨⟩
  exact ⟨[], rfl⟩

theorem feEncodeFrame (a : Memory) (p : Mask) : Statement (.feEncodeFrame a p) := by
  rintro _ ⟨⟩
  exact ⟨encodeBytes a ++ encodeMask p, rfl⟩

theorem fdStart (b : Memory) : Statement (.fdStart b) := by
  rintro _ ⟨⟩
  exact ⟨encodeBytes b, rfl⟩

theorem fdStep : Statement (.fdStep) := by
  rintro _ ⟨⟩
  exact ⟨[], rfl⟩

theorem fdRun : Statement (.fdRun) := by
  rintro _ ⟨⟩
  exact ⟨[], rfl⟩

theorem fdStatus : Statement (.fdStatus) := by
  rintro _ ⟨⟩
  exact ⟨[], rfl⟩

theorem reset : Statement (.reset) := by
  rintro _ ⟨⟩
  exact ⟨[], rfl⟩

theorem ac (a b : Byte) : Statement (.ac a b) := by
  intro _ h
  cases h

theorem hdrRle (r : BitVec 7) : Statement (.hdrRle r) := by
  intro _ h
  cases h

theorem hdrPos (r : BitVec 7) : Statement (.hdrPos r) := by
  intro _ h
  cases h

theorem run (v : Bool) (l : BitVec 7) : Statement (.run v l) := by
  intro _ h
  cases h

theorem posCount (w c : Nat) : Statement (.posCount w c) := by
  intro _ h
  cases h

theorem posIndex (w x : Nat) : Statement (.posIndex w x) := by
  intro _ h
  cases h

theorem posPad (b : Bits) : Statement (.posPad b) := by
  intro _ h
  cases h

end Sys2Proof.Laws.OpCodeFirst
end

