-- ==== Sys2Proof/Laws/Writer.lean ====
section
/-! SUPPORT. What one bit, one field and one flush do to a writer: the accepted bit string grows by exactly those bits
(10_state.md R24), and the invariant is kept. -/

namespace Sys2Proof.Machine

open Sys2Proof

@[simp] theorem appendByte_eq (m : Memory) (b : Byte) : appendByte m b = m ++ [b] := rfl

theorem emptyWriter_inv : WriterInv emptyWriter := by decide

@[simp] theorem emptyWriter_bits : writerBits emptyWriter = [] := rfl

@[simp] theorem pushBit_err (w : Writer) (b : Bool) : (pushBit w b).err = w.err := by
  unfold pushBit; split <;> rfl

@[simp] theorem setWriterErr_acc (w : Writer) : (setWriterErr w).acc = w.acc := rfl
@[simp] theorem setWriterErr_nacc (w : Writer) : (setWriterErr w).nacc = w.nacc := rfl
@[simp] theorem setWriterErr_out (w : Writer) : (setWriterErr w).out = w.out := rfl
@[simp] theorem setWriterErr_err (w : Writer) : (setWriterErr w).err = true := rfl

/-- One bit is appended to the accepted bits and the invariant is kept (R24, R103). -/
theorem pushBit_bits {w : Writer} (b : Bool) (h : WriterInv w) :
    WriterInv (pushBit w b) ∧ writerBits (pushBit w b) = writerBits w ++ [b] := by
  obtain ⟨hn, ha⟩ := h
  have hp := bitsMsb_pushLow w.acc w.nacc b
  have hlt : pushLow w.acc b < 2 ^ (w.nacc + 1) := by
    rw [pushLow_eq, Nat.pow_succ]
    cases b <;> simp <;> omega
  unfold pushBit
  split
  · rename_i h8
    have hb : byteBits (BitVec.ofNat 8 (pushLow w.acc b)) = bitsMsb w.acc w.nacc ++ [b] := by
      rw [← hp, byteBits, BitVec.toNat_ofNat, Nat.mod_eq_of_lt (h8 ▸ hlt), h8]
    refine ⟨⟨Nat.zero_le _, Nat.one_pos⟩, ?_⟩
    simp [writerBits, hb, bitsMsb]
  · exact ⟨⟨by simp only; omega, hlt⟩, by simp only [writerBits, hp, List.append_assoc]⟩

/-- A field is appended most significant bit first (R51, R103). -/
theorem writeBits_bits {w : Writer} (v n : Nat) (h : WriterInv w) :
    WriterInv (writeBits w v n) ∧ writerBits (writeBits w v n) = writerBits w ++ bitsMsb v n := by
  induction n generalizing w with
  | zero => simpa [writeBits, bitsMsb] using h
  | succ n ih =>
    obtain ⟨h1, e1⟩ := pushBit_bits (v.testBit n) h
    obtain ⟨h2, e2⟩ := ih h1
    exact ⟨h2, by rw [writeBits, e2, e1, bitsMsb, List.append_assoc, List.singleton_append]⟩

@[simp] theorem writeBits_err (w : Writer) (v n : Nat) : (writeBits w v n).err = w.err := by
  induction n generalizing w with
  | zero => rfl
  | succ n ih => rw [writeBits, ih, pushBit_err]

/-- Bytes once written stay: a field only appends to the output (R36). -/
theorem writeBits_out (w : Writer) (v n : Nat) : ∃ more, (writeBits w v n).out = w.out ++ more := by
  induction n generalizing w with
  | zero => exact ⟨[], by simp [writeBits]⟩
  | succ n ih =>
    obtain ⟨more, e⟩ := ih (pushBit w (v.testBit n))
    rw [writeBits, e]
    unfold pushBit
    split
    · exact ⟨BitVec.ofNat 8 (pushLow w.acc (v.testBit n)) :: more, by simp⟩
    · exact ⟨more, rfl⟩

@[simp] theorem flushWriter_err (w : Writer) : (flushWriter w).err = w.err := by
  unfold flushWriter; split <;> rfl

@[simp] theorem flushWriter_nacc (w : Writer) : (flushWriter w).nacc = 0 := by
  unfold flushWriter; split
  · rfl
  · omega

/-- A flush only appends to the output (R36). -/
theorem flushWriter_out (w : Writer) : ∃ more, (flushWriter w).out = w.out ++ more := by
  unfold flushWriter
  split
  · exact ⟨_, rfl⟩
  · exact ⟨[], by simp⟩

/-- A flush appends the zero bits up to the next byte boundary and leaves nothing pending (R105). -/
theorem flushWriter_bits {w : Writer} (h : WriterInv w) :
    WriterInv (flushWriter w) ∧
      memBits (flushWriter w).out = writerBits w ++ List.replicate ((8 - w.nacc) % 8) false := by
  obtain ⟨hn, ha⟩ := h
  unfold flushWriter
  split
  · rename_i hpos
    refine ⟨⟨Nat.zero_le _, Nat.one_pos⟩, ?_⟩
    have hz : ∀ n, bitsMsb 0 n = List.replicate n false := fun n => by
      induction n with
      | zero => rfl
      | succ n ih => simp [bitsMsb, ih, List.replicate_succ]
    have hlt : w.acc * 2 ^ (8 - w.nacc) < 2 ^ 8 := by
      calc w.acc * 2 ^ (8 - w.nacc) < 2 ^ w.nacc * 2 ^ (8 - w.nacc) :=
            Nat.mul_lt_mul_of_pos_right ha (by positivity)
        _ = 2 ^ 8 := by rw [← pow_add]; congr 1; omega
    have hb := bitsMsb_append w.acc 0 w.nacc (8 - w.nacc) (by positivity)
    rw [show w.nacc + (8 - w.nacc) = 8 by omega, Nat.add_zero, hz] at hb
    rw [show (8 - w.nacc) % 8 = 8 - w.nacc by omega]
    simp only [appendByte_eq, memBits_append, memBits_cons, memBits_nil, List.append_nil, writerBits, byteBits,
      BitVec.toNat_ofNat, Nat.mod_eq_of_lt hlt, hb, List.append_assoc]
  · have h0 : w.nacc = 0 := by omega
    exact ⟨⟨hn, ha⟩, by simp [writerBits, h0, bitsMsb]⟩

/-- The fields of a positional payload, appended one after the other (R161). -/
theorem writeFields_bits {bw : Writer} (w : Nat) (vs : List Nat) (h : WriterInv bw) :
    WriterInv (writeFields bw w vs) ∧
      writerBits (writeFields bw w vs) = writerBits bw ++ vs.flatMap (fun v => bitsMsb v w) := by
  induction vs generalizing bw with
  | nil => simpa [writeFields] using h
  | cons v vs ih =>
    obtain ⟨h1, e1⟩ := writeBits_bits v w h
    obtain ⟨h2, e2⟩ := ih h1
    exact ⟨h2, by rw [writeFields, e2, e1, List.flatMap_cons, List.append_assoc]⟩

/-- What the checks of BW.WRITE answer (R102, R233). -/
theorem writeCheck_none {err : Bool} {v n : Nat} (h : writeCheck err v n = none) :
    err = false ∧ widthOk n ∧ valueOk v n := by
  unfold writeCheck at h
  split_ifs at h with h1 h2 h3
  exact ⟨by simpa using h1, by tauto, by tauto⟩

theorem writeCheck_accepts {v n : Nat} (hn : widthOk n) (hv : valueOk v n) : writeCheck false v n = none := by
  simp [writeCheck, hn, hv]

end Sys2Proof.Machine
end

