-- ==== Sys2Proof/Tests/Slice0.lean ====
section
/-! SUPPORT. Tests: the checks of WellFormed refuse ill-formed terms; a word written out from the spec's encoding decodes
to each instruction; one step of each operation on an example of spec/95_test_vectors.md or of the operation's rule; and
for each statement with hypotheses, a state and operands that meet them. -/

namespace Sys2Proof.Tests

open Sys2Proof Sys2Proof.Machine

/-! ### Helpers -/

/-- The block of the source's example, `WIDTH=4, HEIGHT=2`, after reset. -/
def s42 : State := State.ofConfig ⟨4, 2⟩

/-- A mask written as in 30_encoding.md R92. -/
def mask (t : String) : Mask := t.toList.map (· == '1')

/-- The result of one instruction. -/
def resultOf (i : Instr) (s : State) : Option Result := (nextState (exec i s)).bind (·.result)

/-- The writer after one instruction. -/
def writerAfter (i : Instr) (s : State) : Option Writer := (nextState (exec i s)).map (·.bw)

/-- The reader after one instruction. -/
def readerAfter (i : Instr) (s : State) : Option Reader := (nextState (exec i s)).map (·.br)

/-- The decoder after one instruction. -/
def decoderAfter (i : Instr) (s : State) : Option Decoder := (nextState (exec i s)).map (·.fd)

/-- The block of the example with this stream at this place of a record. -/
def scanning (stream : Memory) (x : Scan) : State :=
  (s42.withFd { stream := stream, pos := 0, canvas := mask "00000000", rsvdSeen := false }).withScan x

/-! ### WellFormed refuses each kind of ill-formed term -/

theorem test_illformed_count_width_zero : (Instr.posCount 0 0).wellFormed = false := by decide
theorem test_illformed_count_width_33 : (Instr.posCount 33 0).wellFormed = false := by decide
theorem test_illformed_count_too_large : (Instr.posCount 3 8).wellFormed = false := by decide
theorem test_illformed_index_too_large : (Instr.posIndex 4 16).wellFormed = false := by decide
theorem test_illformed_padding_of_a_byte : (Instr.posPad (List.replicate 8 false)).wellFormed = false := by decide

/-! ### Decoding: words written out from R80 to R90 (operands: log 3) -/

theorem test_decode_bwClear : decode .command [false, false, false, false, false, false, false, false] = .ok (.bwClear, []) := by decide
theorem test_decode_bwWrite : decode .command (memBits [0x01, 0x05, 0x03]) = .ok (.bwWrite 5 3, []) := by decide
theorem test_decode_bwWrite_long : decode .command (memBits [0x01, 0x80, 0x01, 0x20]) = .ok (.bwWrite 128 32, []) := by decide
theorem test_decode_bwFlush : decode .command (memBits [0x02]) = .ok (.bwFlush, []) := by decide
theorem test_decode_bwGetBytes : decode .command (memBits [0x03]) = .ok (.bwGetBytes, []) := by decide
theorem test_decode_brLoad : decode .command (memBits [0x10, 0x02, 0x43, 0x80]) = .ok (.brLoad [0x43, 0x80], []) := by decide
theorem test_decode_brRead : decode .command (memBits [0x11, 0x20]) = .ok (.brRead 32, []) := by decide
theorem test_decode_brPos : decode .command (memBits [0x12]) = .ok (.brPos, []) := by decide
theorem test_decode_brConsumed : decode .command (memBits [0x13]) = .ok (.brConsumed, []) := by decide
theorem test_decode_rleeEncode : decode .command (memBits [0x20, 0x08, 0x81]) = .ok (.rleeEncode (mask "10000001"), []) := by decide
theorem test_decode_rledDecode : decode .command (memBits [0x30, 0x01, 0x83, 0x08]) = .ok (.rledDecode [0x83] 8, []) := by decide
theorem test_decode_poseEncode : decode .command (memBits [0x40, 0x08, 0x81, 0x03]) = .ok (.poseEncode (mask "10000001") 3, []) := by decide
theorem test_decode_posdDecode : decode .command (memBits [0x50, 0x01, 0x43, 0x08, 0x03]) = .ok (.posdDecode [0x43] 8 3, []) := by decide
theorem test_decode_feReset : decode .command (memBits [0x60]) = .ok (.feReset, []) := by decide
theorem test_decode_feEncodeFrame : decode .command (memBits [0x61, 0x02, 0x12, 0x34, 0x08, 0x81]) =
    .ok (.feEncodeFrame [0x12, 0x34] (mask "10000001"), []) := by decide
theorem test_decode_fdStart : decode .command (memBits [0x70, 0x01, 0x12]) = .ok (.fdStart [0x12], []) := by decide
theorem test_decode_fdStep : decode .command (memBits [0x71]) = .ok (.fdStep, []) := by decide
theorem test_decode_fdRun : decode .command (memBits [0x72]) = .ok (.fdRun, []) := by decide
theorem test_decode_fdStatus : decode .command (memBits [0x73]) = .ok (.fdStatus, []) := by decide
theorem test_decode_reset : decode .command [true, true, true, true, false, false, false, false] = .ok (.reset, []) := by decide
theorem test_decode_ac : decode .audioControl (memBits [0x12, 0x34]) = .ok (.ac 0x12 0x34, []) := by decide
theorem test_decode_hdrRle : decode .header [false, false, false, false, false, false, false, false] = .ok (.hdrRle 0, []) := by decide
theorem test_decode_hdrRle_reserved : decode .header (memBits [0x7F]) = .ok (.hdrRle 0x7F, []) := by decide
theorem test_decode_hdrPos : decode .header [true, false, false, false, false, false, false, false] = .ok (.hdrPos 0, []) := by decide
theorem test_decode_run : decode .runByte (memBits [0x86]) = .ok (.run true 6, []) := by decide
theorem test_decode_posCount : decode (.countField 3) [false, true, false] = .ok (.posCount 3 2, []) := by decide
theorem test_decode_posIndex : decode (.indexField 3) [true, true, false, true] = .ok (.posIndex 3 6, [true]) := by decide
theorem test_decode_posPad : decode (.padding 2) [false, true] = .ok (.posPad [false, true], []) := by decide
theorem test_decode_unknown : decode .command (memBits [0x04]) = .error (.unknownOperation 4) := by decide
theorem test_decode_truncated : decode .command (memBits [0x10, 0x02, 0x43]) = .error .truncated := by decide
theorem test_decode_not_minimal : decode .command (memBits [0x11, 0x80, 0x00]) = .error .notMinimal := by decide

theorem test_table_word_operation : decodeTableWord 8 0xF0 = some .reset := by decide
theorem test_table_word_header : decodeTableWord 8 0x80 = some (.hdrPos 0) := by decide
-- the low byte of the word is the first byte of the field: log 24
theorem test_table_word_audio_control : decodeTableWord 16 0x3412 = some (.ac 0x12 0x34) := by decide

/-! ### One step of each operation -/

-- R103, worked example: the third write completes the byte 0x43 and leaves one bit
theorem test_bwWrite_completes_byte : writerAfter (.bwWrite 7 3) (s42.withBw ⟨0b010000, 6, [], false⟩) =
    some ⟨1, 1, [0x43], false⟩ := by decide
-- vector W3: a 32-bit field across five bytes
theorem test_bwWrite_straddles : writerAfter (.bwWrite 0xDEADBEEF 32) (s42.withBw ⟨1, 1, [], false⟩) =
    some ⟨1, 1, [0xEF, 0x56, 0xDF, 0x77], false⟩ := by decide
-- vector W15, W20
theorem test_bwWrite_value_fault : (nextState (exec (.bwWrite 8 3) s42)).map (fun t => (t.bw, t.result)) =
    some (⟨0, 0, [], true⟩, some (.fault .valueRange)) := by decide
theorem test_bwWrite_width_before_value : resultOf (.bwWrite 9 0) s42 = some (.fault .numBitsRange) := by decide
-- R101, R105, R106
theorem test_bwClear : writerAfter .bwClear (s42.withBw ⟨5, 3, [1], true⟩) = some ⟨0, 0, [], false⟩ := by decide
theorem test_bwFlush : writerAfter .bwFlush (s42.withBw ⟨1, 1, [0x43], false⟩) = some ⟨0, 0, [0x43, 0x80], false⟩ := by decide
theorem test_bwFlush_aligned : writerAfter .bwFlush (s42.withBw ⟨0, 0, [0xAB], false⟩) = some ⟨0, 0, [0xAB], false⟩ := by decide
theorem test_bwGetBytes : resultOf .bwGetBytes (s42.withBw ⟨1, 1, [0x43], false⟩) = some (.bytes [0x43]) := by decide
-- R121, R123, vectors Rd1, Rd5, Rd10
theorem test_brLoad : readerAfter (.brLoad [0x43, 0x80]) (s42.withBr ⟨[1], 1, 0⟩) = some ⟨[0x43, 0x80], 0, 0⟩ := by decide
theorem test_brRead_across_bytes : (nextState (exec (.brRead 3) (s42.withBr ⟨[0x47, 0x80], 0, 6⟩))).map
    (fun t => (t.br, t.result)) = some (⟨[0x47, 0x80], 1, 1⟩, some (.value 7)) := by decide
theorem test_brRead_exhausted : (nextState (exec (.brRead 8) (s42.withBr ⟨[0x47, 0x80], 1, 1⟩))).map
    (fun t => (t.br, t.result)) = some (⟨[0x47, 0x80], 1, 1⟩, some .exhausted) := by decide
theorem test_brPos : resultOf .brPos (s42.withBr ⟨[0x43, 0x80], 1, 1⟩) = some (.pos 1 1) := by decide
theorem test_brConsumed : resultOf .brConsumed (s42.withBr ⟨[0x43, 0x80], 1, 1⟩) = some (.count 2) := by decide
theorem test_brConsumed_aligned : resultOf .brConsumed (s42.withBr ⟨[0x43, 0x80], 2, 0⟩) = some (.count 2) := by decide
-- vectors of sections 2.3 and 2.4
theorem test_rleeEncode : resultOf (.rleeEncode (mask "10000001")) s42 = some (.bytes [0x81, 0x06, 0x81]) := by decide
theorem test_rleeEncode_cut : resultOf (.rleeEncode (List.replicate 200 true)) s42 = some (.bytes [0xFF, 0xC9]) := by
  decide +kernel
theorem test_rledDecode_empty_runs : resultOf (.rledDecode [0x00, 0x80, 0x82, 0x06, 0x99] 8) s42 =
    some (.mask (mask "11000000") 4) := by decide
theorem test_rledDecode_clipped : resultOf (.rledDecode [0x03, 0x83, 0x7F] 8) s42 =
    some (.mask (mask "00011100") 3) := by decide
-- vectors of sections 2.5 and 2.6
theorem test_poseEncode : resultOf (.poseEncode (mask "10000001") 3) s42 = some (.bytes [0x43, 0x80]) := by decide
theorem test_poseEncode_overflow : resultOf (.poseEncode (mask "11111111") 3) s42 = some .overflow := by decide
theorem test_posdDecode_duplicate : resultOf (.posdDecode [0x49, 0x20] 8 3) s42 =
    some (.mask (mask "00100000") 2) := by decide
theorem test_posdDecode_whole_bytes : resultOf (.posdDecode [0xFF, 0xFF, 0xFF] 8 3) s42 =
    some (.mask (mask "00000001") 3) := by decide
-- vectors of section 2.7 and program A
theorem test_feReset : (nextState (exec .feReset (s42.withPrev (mask "11111111")))).map (·.fe) =
    some ⟨mask "00000000"⟩ := by decide
theorem test_feEncodeFrame_positional : (nextState (exec (.feEncodeFrame [0x12, 0x34] (mask "10000001")) s42)).map
    (fun t => (t.fe, t.result)) = some (⟨mask "10000001"⟩, some (.record [0x12, 0x34, 0x80, 0x43, 0x80])) := by decide
theorem test_feEncodeFrame_tie : resultOf (.feEncodeFrame [0x00, 0x00] (mask "11111111"))
    (s42.withPrev (mask "10000001")) = some (.record [0x00, 0x00, 0x00, 0x01, 0x86, 0x01]) := by decide
-- vectors of section 2.8 and program B
theorem test_fdStart : decoderAfter (.fdStart [0x12]) (scanning [1, 2, 3] .idle) =
    some ⟨[0x12], 0, mask "00000000", false⟩ := by decide
theorem test_fdStep_reserved : (nextState (exec .fdStep (scanning [0xAA, 0xBB, 0x7F, 0x88] .idle))).map
    (fun t => (t.fd.pos, t.fd.rsvdSeen, t.result)) =
    some (4, true, some (.frame ⟨[0xAA, 0xBB], mask "11111111"⟩)) := by decide
theorem test_fdStep_two_bytes_left : resultOf .fdStep (scanning [0x12, 0x34] .idle) = some .endOfStream := by decide
theorem test_fdRun : (nextState (exec .fdRun
    (scanning [0x01, 0x02, 0x00, 0x88, 0x03, 0x04, 0x80, 0x43, 0x80, 0x05, 0x06] .idle))).map
    (fun t => (t.fd.pos, t.result)) =
    some (9, some (.frames [⟨[0x01, 0x02], mask "11111111"⟩, ⟨[0x03, 0x04], mask "01111110"⟩])) := by decide
theorem test_fdStatus : resultOf .fdStatus (scanning [0x12, 0x34] .idle) = some (.status 0 2 false) := by decide
theorem test_reset : (nextState (exec .reset (s42.withBw ⟨5, 3, [1], true⟩))).map (fun t => (t.bw, t.cfg, t.result)) =
    some (⟨0, 0, [], false⟩, ⟨4, 2⟩, some .ok) := by decide

/-! ### One step of each stream element: the record 12 34 80 43 80 of R204, and 12 34 00 83 -/

theorem test_ac : (nextState (step (scanning [0x12, 0x34, 0x80, 0x43, 0x80] .recordHead))).map (·.scan) =
    some (.headerByte 0x12 0x34) := by decide
theorem test_hdrPos : (nextState (step (scanning [0x12, 0x34, 0x80, 0x43, 0x80] (.headerByte 0x12 0x34)))).map (·.scan) =
    some (.countField 0x12 0x34 false ⟨[0x43, 0x80], 0, 0⟩) := by decide
theorem test_hdrRle : (nextState (step (scanning [0x12, 0x34, 0x01, 0x83] (.headerByte 0x12 0x34)))).map (·.scan) =
    some (.runs 0x12 0x34 true [] 0) := by decide
theorem test_run_truncated : (nextState (step (scanning [0x12, 0x34, 0x00, 0x83] (.runs 0x12 0x34 false [] 0)))).map
    (fun t => (t.fd.pos, t.result)) = some (4, some (.frame ⟨[0x12, 0x34], mask "11100000"⟩)) := by decide
theorem test_posCount : (nextState (step (scanning [0x12, 0x34, 0x80, 0x43, 0x80]
    (.countField 0x12 0x34 false ⟨[0x43, 0x80], 0, 0⟩)))).map (·.scan) =
    some (.indexFields 0x12 0x34 false ⟨[0x43, 0x80], 0, 3⟩ 2 (mask "00000000")) := by decide
theorem test_posIndex : (nextState (step (scanning [0x12, 0x34, 0x80, 0x43, 0x80]
    (.indexFields 0x12 0x34 false ⟨[0x43, 0x80], 0, 6⟩ 1 (mask "10000000"))))).map (·.scan) =
    some (.indexFields 0x12 0x34 false ⟨[0x43, 0x80], 1, 1⟩ 0 (mask "10000001")) := by decide
theorem test_posPad : (nextState (step (scanning [0x12, 0x34, 0x80, 0x43, 0x80]
    (.indexFields 0x12 0x34 false ⟨[0x43, 0x80], 1, 1⟩ 0 (mask "10000001"))))).map
    (fun t => (t.fd.pos, t.result)) = some (5, some (.frame ⟨[0x12, 0x34], mask "10000001"⟩)) := by decide

/-- Six element steps of a record are one FD.STEP. -/
theorem test_element_walk : (stepMany 6 (scanning [0x12, 0x34, 0x80, 0x43, 0x80] .recordHead)) =
    nextState (exec .fdStep (scanning [0x12, 0x34, 0x80, 0x43, 0x80] .recordHead)) := by decide +kernel

/-! ### Fetching and the table words -/

theorem test_step_waits : step s42 = .refused .awaitingHost := rfl
theorem test_step_runs_port : (nextState (step (s42.withPort (encode (.bwWrite 5 3) ++ encode .bwFlush)))).map
    (fun t => (t.bw, t.port)) = some (⟨5, 3, [], false⟩, encode .bwFlush) := by decide
theorem test_fetch_word_operation : step (State.reset.withFetchWord 8 0x13) = exec .brConsumed State.reset := rfl
theorem test_fetch_word_header : ∃ t, step (State.reset.withFetchWord 8 0x80) = .next t := ⟨_, rfl⟩
theorem test_fetch_word_audio_control : (nextState (step (s42.withFetchWord 16 0x3412))).map (·.scan) =
    some (.headerByte 0x12 0x34) := by decide

/-! ### Every statement with hypotheses has a case that meets them -/

/-- The example block meets the invariant. -/
theorem s42_inv : StateInv s42 := ⟨by decide, by decide, by decide, by decide, by decide, trivial⟩

/-- The record of R204 in an element-wise FD.STEP meets the invariant at the record head. -/
theorem walk_inv : StateInv (scanning [0x12, 0x34, 0x80, 0x43, 0x80] .recordHead) :=
  ⟨by decide, by decide, by decide, by decide, by decide, trivial⟩

/-- The same inside the positional payload. -/
theorem walk_inv_inside : StateInv (scanning [0x12, 0x34, 0x80, 0x43, 0x80]
    (.indexFields 0x12 0x34 false ⟨[0x43, 0x80], 0, 6⟩ 1 (mask "10000000"))) :=
  ⟨by decide, by decide, by decide, by decide, by decide, by decide, by decide, rfl, rfl⟩

theorem test_witness_Clog2IsLeastExponent : 1 ≤ 9 ∧ 9 ≤ 2 ^ 4 ∧ clog2 9 = 4 ∧ clog2 8 = 3 ∧ clog2 1 = 0 ∧
    clog2 (2 ^ 32) = 32 := by decide +kernel
theorem test_witness_IllegalConfigurationIsRefused : Config.legal ⟨4, 2⟩ ∧ Config.legal ⟨65536, 65536⟩ ∧
    ¬ Config.legal ⟨1, 1⟩ ∧ ¬ Config.legal ⟨65537, 65536⟩ := by decide
theorem test_witness_ResetRestoresEveryUnit : State.instantiate ⟨4, 2⟩ = some s42 ∧ (∃ t, exec .reset s42 = .next t) ∧
    (∃ t, exec .bwClear s42 = .next t) ∧ (∃ t, exec (.brLoad [1]) s42 = .next t) ∧ (∃ t, exec .feReset s42 = .next t) ∧
    ∃ t, exec (.fdStart [1]) s42 = .next t := ⟨rfl, ⟨_, rfl⟩, ⟨_, rfl⟩, ⟨_, rfl⟩, ⟨_, rfl⟩, ⟨_, rfl⟩⟩
theorem test_witness_FirstOperationAfterReset : Config.legal ⟨4, 2⟩ ∧ ([0, 1] : Memory).length = 2 ∧
    (mask "10000001").length = Config.totalPixels ⟨4, 2⟩ := by decide
theorem test_witness_ConfigurationNeverChanges : ∃ t, exec .reset s42 = .next t := ⟨_, rfl⟩
theorem test_witness_UnitsDoNotInteract : (∃ t, exec .bwFlush s42 = .next t) ∧ (∃ t, exec (.brRead 1) s42 = .next t) ∧
    (∃ t, exec .feReset s42 = .next t) ∧ (∃ t, exec .fdStep s42 = .next t) ∧
    ∃ t, exec (.ac 1 2) (scanning [1, 2, 3] .recordHead) = .next t := ⟨⟨_, rfl⟩, ⟨_, rfl⟩, ⟨_, rfl⟩, ⟨_, rfl⟩, ⟨_, rfl⟩⟩
theorem test_witness_CodecOperationsArePure : exec (.rleeEncode [true]) s42 = .next (s42.withResult (.bytes [0x81])) := rfl
theorem test_witness_OperationReadsOwnUnitOnly : s42.cfg = (s42.withPrev []).cfg ∧ s42.bw = (s42.withPrev []).bw ∧
    s42.br = (s42.withPrev []).br ∧ s42.fd = (s42.withPrev []).fd ∧ s42.fe = (s42.withPort [true]).fe ∧
    (∃ t, exec .bwFlush s42 = .next t) ∧ (∃ t, exec .brPos s42 = .next t) ∧ (∃ t, exec .feReset s42 = .next t) ∧
    ∃ t, exec .fdRun s42 = .next t := ⟨rfl, rfl, rfl, rfl, rfl, ⟨_, rfl⟩, ⟨_, rfl⟩, ⟨_, rfl⟩, ⟨_, rfl⟩⟩
theorem test_witness_OutputIsAppendOnly : WriterInv ⟨5, 3, [7], false⟩ ∧
    (∃ t, exec .bwFlush (s42.withBw ⟨5, 3, [7], false⟩) = .next t) ∧
    ∃ t, exec (.bwWrite 1 32) (s42.withBw ⟨5, 3, [7], false⟩) = .next t := ⟨by decide, ⟨_, rfl⟩, ⟨_, rfl⟩⟩
theorem test_witness_DecodeOfEncode : (Instr.posCount 3 7).wellFormed = true ∧ (Instr.posIndex 32 (2 ^ 32 - 1)).wellFormed = true ∧
    (Instr.posPad [true]).wellFormed = true ∧ (Instr.bwWrite 9 0).wellFormed = true := by decide
theorem test_witness_EncodeOfDecode : decode .command (memBits [0x11, 0x81, 0x01, 0xFF]) =
    .ok (.brRead 129, memBits [0xFF]) := by decide
theorem test_witness_OperationCodes : (Instr.bwWrite 1 2).opCode = some 0x01 ∧
    (0x04 : Byte) ∉ ([0x00, 0x01, 0x02, 0x03, 0x10, 0x11, 0x12, 0x13, 0x20, 0x30, 0x40, 0x50, 0x60, 0x61, 0x70, 0x71,
      0x72, 0x73, 0xF0] : List Byte) := by decide
theorem test_witness_RunByteFormat : (runByte true 127).toNat = 255 ∧ (runByte false 1).toNat = 1 := by decide
theorem test_witness_BwClearEmptiesWriter : (s42.withBw ⟨0, 0, [], true⟩).bw.err = true ∧
    ∃ t, exec .bwClear (s42.withBw ⟨0, 0, [], true⟩) = .next t ∧ t.bw.err = false := ⟨rfl, _, rfl, rfl⟩
theorem test_witness_BwWriteRefusals : (s42.withBw ⟨0, 0, [], true⟩).bw.err = true ∧ s42.bw.err = false ∧ 2 ^ 32 ≤ 2 ^ 32 ∧
    2 ^ 1 ≤ 2 := by decide
theorem test_witness_BwWriteClosedForm : WriterInv ⟨127, 7, [1], false⟩ ∧ 2 ^ 32 - 1 < 2 ^ 32 ∧ 1 < 2 ^ 1 := by decide
theorem test_witness_BwFlushPadsPendingBits : (s42.withBw ⟨127, 7, [], false⟩).bw.nacc = 7 ∧ s42.bw.nacc = 0 ∧
    (s42.withBw ⟨0, 0, [], true⟩).bw.err = true ∧ ∃ t, exec .bwFlush s42 = .next t := ⟨rfl, rfl, rfl, _, rfl⟩
theorem test_witness_BwGetBytesReturnsCompletedBytes : (s42.withBw ⟨0, 0, [], true⟩).bw.err = true ∧
    s42.bw.err = false := ⟨rfl, rfl⟩
theorem test_witness_WriterHoldsAcceptedBits : WriterInv s42.bw ∧
    (∃ t, exec (.bwWrite 5 3) s42 = .next t ∧ t.result = some .ok) ∧
    ∃ t, exec .bwFlush s42 = .next t ∧ t.result = some .ok := ⟨by decide, ⟨_, rfl, rfl⟩, ⟨_, rfl, rfl⟩⟩
theorem test_witness_FaultedWriterStaysFaulted :
    (∃ t, exec (.bwWrite 0 0) s42 = .next t ∧ t.result = some (.fault .numBitsRange)) ∧
    (∃ t, exec (.bwWrite 2 1) s42 = .next t ∧ t.result = some (.fault .valueRange)) ∧
    (∃ t, exec .brPos (s42.withBw ⟨0, 0, [], true⟩) = .next t) ∧ ∃ t, exec .reset s42 = .next t :=
  ⟨⟨_, rfl, rfl⟩, ⟨_, rfl, rfl⟩, ⟨_, rfl⟩, ⟨_, rfl⟩⟩
/-- Fields that meet the hypotheses of WriterLengthLaw and of WriterReaderRoundTrip, at both ends of the widths. -/
theorem test_witness_WriterLengthLaw : s42.bw = { acc := 0, nacc := 0, out := [], err := false } ∧
    ∀ f ∈ ([(2, 3), (0, 3), (7, 3), (2 ^ 32 - 1, 32)] : List (Nat × Nat)), 1 ≤ f.2 ∧ f.2 ≤ 32 ∧ f.1 < 2 ^ f.2 := by decide
theorem test_witness_WriterReaderRoundTrip : s42.bw = { acc := 0, nacc := 0, out := [], err := false } ∧
    ∀ f ∈ [(1, 1), (2 ^ 32 - 1, 32), (5, 3)], 1 ≤ f.2 ∧ f.2 ≤ 32 ∧ f.1 < 2 ^ f.2 := by decide
theorem test_witness_BrLoadAndStatusReads : ReaderInv ⟨[0x43, 0x80], 1, 1⟩ := by decide
theorem test_witness_BrReadClosedForm : ReaderInv ⟨[1, 2, 3, 4, 5], 0, 7⟩ ∧
    32 ≤ 8 * (([1, 2, 3, 4, 5] : Memory).length - 0) - 7 ∧ 8 * (([1] : Memory).length - 0) - 0 < 9 := by decide
theorem test_witness_ReaderInvariantKept : ReaderInv ⟨[1, 2], 1, 7⟩ ∧ ∃ t, exec (.brRead 1) (s42.withBr ⟨[1, 2], 1, 7⟩) = .next t :=
  ⟨by decide, _, rfl⟩
theorem test_witness_ReaderNeverLosesPosition : (∀ i ∈ [Instr.brRead 9, .brRead 4], i ≠ .reset ∧ ∀ b', i ≠ .brLoad b') ∧
    ∃ u, execAll [.brLoad [0xA5], .brRead 9, .brRead 4] s42 = some u := ⟨by simp, _, rfl⟩
theorem test_witness_RleEncoderOutput : (mask "01").head? ≠ some true ∧
    List.replicate 128 true ++ mask "01" = List.replicate 128 true ++ mask "01" ∧
    ∃ e, exec (.rleeEncode (mask "01")) s42 = .next (s42.withResult (.bytes e)) := ⟨by decide, rfl, _, rfl⟩
theorem test_witness_RleRoundTrip : ∃ t e, exec (.rleeEncode (mask "10000001")) s42 = .next t ∧ t.result = some (.bytes e) :=
  ⟨_, _, rfl, rfl⟩
theorem test_witness_PositionalWidthRefused : (0 < 1 ∧ 32 < 33) ∧ Config.legal ⟨4, 2⟩ := by decide
theorem test_witness_PoseOverflowExactly : 2 ≤ (mask "11111111").length ∧ (mask "11111111").length ≤ 2 ^ 32 ∧
    clog2 (mask "11111111").length = 3 ∧ exec (.poseEncode (mask "11111111") 3) s42 = .next (s42.withResult .overflow) :=
  ⟨by decide, by decide, by decide, rfl⟩
theorem test_witness_PoseEncodePayload : (mask "11111110").count true < 2 ^ 3 ∧
    ∀ x ∈ List.range 8, (mask "11111110")[x]? = some true → x < 2 ^ 3 := by decide
theorem test_witness_PosdDecodeClosedForm : 8 * ([0x43, 0x80] : Memory).length / 3 = 5 ∧ 8 * ([0, 0, 1] : Memory).length / 25 = 0 := by
  decide
theorem test_witness_PositionalRoundTrip : ∃ t e, exec (.poseEncode (mask "10000001") 3) s42 = .next t ∧
    t.result = some (.bytes e) := ⟨_, _, rfl, rfl⟩
theorem test_witness_EmptyDelta : exec (.poseEncode (List.replicate 8 false) 32) s42 =
    .next (s42.withResult (.bytes [0, 0, 0, 0])) := rfl
theorem test_witness_FeResetAndRefusals : ([1] : Memory).length ≠ 2 ∧ ([1, 2] : Memory).length = 2 ∧
    (mask "1000000").length ≠ s42.cfg.totalPixels := by decide
theorem test_witness_FeEncodeFrameRecord : s42.cfg.legal ∧
    exec (.rleeEncode (List.zipWith xor (mask "10000001") s42.fe.prev)) s42 =
      .next (s42.withResult (.bytes [0x81, 0x06, 0x81])) ∧
    exec (.poseEncode (List.zipWith xor (mask "10000001") s42.fe.prev) (indexBits s42.cfg)) s42 =
      .next (s42.withResult (.bytes [0x43, 0x80])) ∧
    exec (.poseEncode (List.zipWith xor (mask "11111111") s42.fe.prev) (indexBits s42.cfg)) s42 =
      .next (s42.withResult .overflow) := ⟨by decide, rfl, rfl, rfl⟩
theorem test_witness_FeRecordShape : StateInv s42 ∧ ([1, 2] : Memory).length = 2 ∧
    (mask "10000001").length = s42.cfg.totalPixels := ⟨s42_inv, rfl, rfl⟩
theorem test_witness_FdStepEndOfStream : ∃ t, exec .fdStep (scanning [0x12, 0x34] .idle) = .next t ∧
    t.result = some .endOfStream ∧ execAll [.fdStep, .bwFlush, .fdRun] t = some (t.withResult (.frames [])) :=
  ⟨_, rfl, rfl, rfl⟩
theorem test_witness_FdStepDeliversRecord :
    (scanning [0x12, 0x34, 0x80, 0x43, 0x80] .idle).cfg.legal ∧
    (scanning [0x12, 0x34, 0x80, 0x43, 0x80] .idle).fd.stream.drop 0 = 0x12 :: 0x34 :: 0x80 :: [0x43, 0x80] ∧
    exec (.posdDecode [0x43, 0x80] 8 3) s42 = .next (s42.withResult (.mask (mask "10000001") 2)) ∧
    exec (.rledDecode [0x83] 8) s42 = .next (s42.withResult (.mask (mask "11100000") 1)) :=
  ⟨by decide, rfl, rfl, rfl⟩
theorem test_witness_ReservedHeaderBitsIgnored :
    (0x80 : Byte).toNat / 128 = (0x93 : Byte).toNat / 128 ∧
    (∃ t, exec .fdStep (scanning [1, 2, 0x80, 0x6E] .idle) = .next t) ∧
    ∃ t, exec .fdStep (scanning [1, 2, 0x93, 0x6E] .idle) = .next t := ⟨by decide, ⟨_, rfl⟩, ⟨_, rfl⟩⟩
theorem test_witness_ReservedFlagIsSticky :
    (∃ t, exec (.fdStart []) (s42.withFd ⟨[], 0, mask "00000000", true⟩) = .next t ∧ t.fd.rsvdSeen = false) ∧
    ∃ t, exec .fdStep (scanning [0xAA, 0xBB, 0x7F, 0x88] .idle) = .next t ∧ t.fd.rsvdSeen = true :=
  ⟨⟨_, rfl, rfl⟩, ⟨_, rfl, rfl⟩⟩
theorem test_witness_EndToEndLossless : s42.cfg.legal ∧
    ∀ f ∈ [(([0x12, 0x34] : Memory), mask "10000001"), ([0, 0], mask "11111111")],
      f.1.length = 2 ∧ f.2.length = s42.cfg.totalPixels := by decide
theorem test_witness_NoStreamIsFatal : ∃ t, exec (.feEncodeFrame [1] []) s42 = .next t ∧ t.result = some (.fault .acLength) :=
  ⟨_, rfl, rfl⟩
theorem test_witness_FaultsArePrecise : (Instr.bwWrite 0 0).slot = .command ∧
    ∃ t, exec (.bwWrite 0 0) s42 = .next t ∧ t.result = some (.fault .numBitsRange) := ⟨rfl, _, rfl, rfl⟩
theorem test_witness_HeadElements : (scanning [1, 2, 0, 0x83] (.headerByte 1 2)).cfg.legal ∧ 0 + 3 < ([1, 2, 0, 0x83] : Memory).length ∧
    ([1, 2, 0] : Memory).length ≤ 0 + 3 := by decide
theorem test_witness_RunElementFillsMask :
    (scanning [1, 2, 0, 0x83, 0x05] (.runs 1 2 false [] 0)).scan = .runs 1 2 false [] 0 ∧
    ([] ++ List.replicate (min 3 (8 - 0)) true).length < 8 ∧ 0 + 3 + (0 + 1) < ([1, 2, 0, 0x83, 0x05] : Memory).length ∧
    ([1, 2, 0, 0x83] : Memory).length ≤ 0 + 3 + (0 + 1) := by decide
theorem test_witness_PositionalElements : ReaderInv ⟨[0x43, 0x80], 0, 6⟩ ∧ indexBits ⟨4, 2⟩ = 3 ∧
    3 ≤ remaining ⟨[0x43, 0x80], 0, 6⟩ ∧ remaining ⟨[0x43], 0, 6⟩ < 3 ∧ ReaderInv ⟨[], 0, 0⟩ ∧ remaining ⟨[], 0, 0⟩ < 3 ∧
    [false, false].length = (8 - 6) % 8 := by decide
theorem test_witness_ElementOutOfPlaceRefused : (Instr.run true 3).slot ≠ .command ∧ s42.scan = .idle := by decide
theorem test_witness_FdStepIsElementWalk : StateInv (scanning [0x12, 0x34, 0x80, 0x43, 0x80] .recordHead) ∧
    (scanning [0x12, 0x34, 0x80, 0x43, 0x80] .recordHead).scan = .recordHead := ⟨walk_inv, rfl⟩
theorem test_witness_ElementStepsProceed : StateInv (scanning [0x12, 0x34, 0x80, 0x43, 0x80]
    (.indexFields 0x12 0x34 false ⟨[0x43, 0x80], 0, 6⟩ 1 (mask "10000000"))) := walk_inv_inside
theorem test_witness_StepRunsDecodedInstruction :
    decode .command (s42.withPort (encode .bwFlush)).port = .ok (.bwFlush, []) ∧
    decode (fetchPlace (scanning [1, 2, 3] .recordHead)).1 (fetchPlace (scanning [1, 2, 3] .recordHead)).2 =
      .ok (.ac 1 2, memBits [3]) := by decide
theorem test_witness_StepRunsIssuedOperation : (s42.withPort (encode .fdRun ++ [])).scan = .idle ∧ Instr.fdRun.slot = .command ∧
    s42.port = [] := by decide
theorem test_witness_StepKeepsInvariant : StateInv (scanning [0x12, 0x34, 0x80, 0x43, 0x80] .recordHead) ∧
    ∃ t, step (scanning [0x12, 0x34, 0x80, 0x43, 0x80] .recordHead) = .next t := ⟨walk_inv, _, rfl⟩
theorem test_witness_ResetMeetsInvariant : State.instantiate ⟨4, 2⟩ = some s42 := rfl

end Sys2Proof.Tests
end

/-! Proofs: the operations of RLEE, RLED, POSE and POSD, one equation per case of their meaning. -/

namespace Sys2Proof.Machine

open Sys2Proof

theorem exec_rleeEncode (m : Mask) (s : State) :
    exec (.rleeEncode m) s = .next (s.withResult (.bytes (rleeBytes m))) := rfl

theorem exec_rledDecode (b : Memory) (n : Nat) (s : State) :
    exec (.rledDecode b n) s = .next (s.withResult (.mask (rledScan b n).1 (rledScan b n).2)) := rfl

/-- POSE.ENCODE refuses an illegal width (R162). -/
theorem exec_poseEncode_of_not_widthOk {w : Nat} (h : ¬ widthOk w) (m : Mask) (s : State) :
    exec (.poseEncode m w) s = .next (s.withResult (.fault .numBitsRange)) := if_neg h

/-- POSE.ENCODE of a legal width where the mask has no encoding of that width (R163). -/
theorem exec_poseEncode_of_none {m : Mask} {w : Nat} (h : widthOk w) (hb : poseBytes m w = none) (s : State) :
    exec (.poseEncode m w) s = .next (s.withResult .overflow) := by
  simp [exec, execPoseEncode, h, hb]

/-- POSE.ENCODE of a legal width where the mask has an encoding of that width (R161). -/
theorem exec_poseEncode_of_some {m : Mask} {w : Nat} {b : Memory} (h : widthOk w) (hb : poseBytes m w = some b)
    (s : State) : exec (.poseEncode m w) s = .next (s.withResult (.bytes b)) := by
  simp [exec, execPoseEncode, h, hb]

/-- POSD.DECODE refuses an illegal width (R166). -/
theorem exec_posdDecode_of_not_widthOk {w : Nat} (h : ¬ widthOk w) (b : Memory) (n : Nat) (s : State) :
    exec (.posdDecode b n w) s = .next (s.withResult (.fault .numBitsRange)) := if_neg h

/-- POSD.DECODE of a legal width (R166). -/
theorem exec_posdDecode_of_widthOk {w : Nat} (h : widthOk w) (b : Memory) (n : Nat) (s : State) :
    exec (.posdDecode b n w) s = .next (s.withResult (.mask (posdScan b n w).1 (posdScan b n w).2)) := if_pos h

/-- POSE.ENCODE is a pure function: which of its three cases applies is decided by the operands (R27). -/
theorem exec_poseEncode_pure (m : Mask) (w : Nat) : ∃ r, ∀ s, exec (.poseEncode m w) s = .next (s.withResult r) := by
  by_cases hw : widthOk w
  · cases hb : poseBytes m w with
    | none => exact ⟨_, exec_poseEncode_of_none hw hb⟩
    | some b => exact ⟨_, exec_poseEncode_of_some hw hb⟩
  · exact ⟨_, exec_poseEncode_of_not_widthOk hw m⟩

/-- POSD.DECODE is a pure function: which of its two cases applies is decided by the width (R27). -/
theorem exec_posdDecode_pure (b : Memory) (n w : Nat) :
    ∃ r, ∀ s, exec (.posdDecode b n w) s = .next (s.withResult r) := by
  by_cases hw : widthOk w
  · exact ⟨_, exec_posdDecode_of_widthOk hw b n⟩
  · exact ⟨_, exec_posdDecode_of_not_widthOk hw b n⟩

/-- Settles O7, by the four units: each case of an operation's meaning is chosen by the operands alone. -/
theorem codecOperationsArePure : Obligations.CodecOperationsArePure := by
  rintro i (⟨m, rfl⟩ | ⟨b, n, rfl⟩ | ⟨m, w, rfl⟩ | ⟨b, n, w, rfl⟩)
  · exact ⟨_, exec_rleeEncode m⟩
  · exact ⟨_, exec_rledDecode b n⟩
  · exact exec_poseEncode_pure m w
  · exact exec_posdDecode_pure b n w

end Sys2Proof.Machine

/-! Proofs: the fields of the stream elements (30_encoding.md R84, R88). A byte in stream order is its top bit and then
its low seven bits, and the decoder takes a header byte and a run byte apart at that place. -/

namespace Sys2Proof.Machine

open Sys2Proof

theorem takeBits_append {n : Nat} {f : Bits} (h : f.length = n) (rest : Bits) :
    takeBits n (f ++ rest) = .ok (f, rest) := by
  subst h
  simp [takeBits]

/-- At the place of a stream element the decoder takes as many bits as the place asks for, whatever follows. -/
theorem decode_element_append {slot : Slot} {f : Bits} (hs : slot ≠ .command) (hf : f.length = slot.width)
    (rest : Bits) : decode slot (f ++ rest) = .ok (decodeElement slot f, rest) := by
  simp [decode, takeBits_append hf, hs]

theorem topBit_toNat (b : Byte) : (topBit b).toNat = b.toNat / 128 := by
  have hb : b.toNat < 256 := b.isLt
  rw [topBit, BitVec.getLsbD, Nat.toNat_testBit]
  omega

theorem topBit_eq_decide (b : Byte) : topBit b = decide (128 ≤ b.toNat) := by
  have h := topBit_toNat b
  cases ht : topBit b <;> simp [ht] at h ⊢ <;> omega

theorem lowSeven_toNat (b : Byte) : (lowSeven b).toNat = b.toNat % 128 := by
  simp [lowSeven]

theorem byteBits_eq_cons (b : Byte) : byteBits b = topBit b :: bitsMsb (lowSeven b).toNat 7 := by
  have hsplit : b.toNat / 128 * 2 ^ 7 + (lowSeven b).toNat = b.toNat := by
    rw [lowSeven_toNat]
    omega
  have hlow : bitsMsb b.toNat 7 = bitsMsb (lowSeven b).toNat 7 := by
    rw [← bitsMsb_add_mul (lowSeven b).toNat 7 (b.toNat / 128), hsplit]
  rw [byteBits, bitsMsb, hlow, topBit, BitVec.getLsbD]

/-- The first bit of a byte is its top bit (R81, R84). -/
theorem headD_byteBits (b : Byte) : (byteBits b).headD false = topBit b := by
  rw [byteBits_eq_cons, List.headD_cons]

/-- The seven bits after the first are the low seven bits of a byte (R81, R84). -/
theorem ofNat_valMsb_tail_byteBits (b : Byte) : BitVec.ofNat 7 (valMsb (byteBits b).tail) = lowSeven b := by
  rw [byteBits_eq_cons, List.tail_cons, valMsb_bitsMsb (lowSeven b).isLt, BitVec.ofNat_toNat, BitVec.setWidth_eq]

theorem decode_header_byteBits (b : Byte) (rest : Bits) :
    decode .header (byteBits b ++ rest) =
      .ok (if topBit b then .hdrPos (lowSeven b) else .hdrRle (lowSeven b), rest) := by
  rw [decode_element_append (by decide) (byteBits_length b), decodeElement, headD_byteBits,
    ofNat_valMsb_tail_byteBits]

theorem decode_runByte_byteBits (b : Byte) (rest : Bits) :
    decode .runByte (byteBits b ++ rest) = .ok (.run (topBit b) (lowSeven b), rest) := by
  rw [decode_element_append (by decide) (byteBits_length b), decodeElement, headD_byteBits,
    ofNat_valMsb_tail_byteBits]

theorem decode_countField_append (f rest : Bits) :
    decode (.countField f.length) (f ++ rest) = .ok (.posCount f.length (valMsb f), rest) :=
  decode_element_append (by simp) rfl rest

theorem decode_indexField_append (f rest : Bits) :
    decode (.indexField f.length) (f ++ rest) = .ok (.posIndex f.length (valMsb f), rest) :=
  decode_element_append (by simp) rfl rest

theorem decode_audioControl_memBits (a b : Byte) (rest : Bits) :
    decode .audioControl (memBits [a, b] ++ rest) = .ok (.ac a b, rest) := by
  have hbits : memBits [a, b] = byteBits a ++ byteBits b := by simp
  rw [decode_element_append (by decide) (memBits_length [a, b]), hbits, decodeElement,
    List.take_left' (byteBits_length a), List.drop_left' (byteBits_length a), byteBits_inv, byteBits_inv]

theorem runByte_toNat (v : Bool) {l : Nat} (h : l ≤ 127) : (runByte v l).toNat = 128 * v.toNat + l := by
  have hv : v.toNat ≤ 1 := v.toNat_le
  rw [runByte, BitVec.toNat_ofNat, Nat.mod_eq_of_lt (by omega)]

/-- The fields of the run byte are those it was made of, length 0 included. -/
theorem decode_runByte_runByte (v : Bool) (l : BitVec 7) (rest : Bits) :
    decode .runByte (byteBits (runByte v l.toNat) ++ rest) = .ok (.run v l, rest) := by
  obtain ⟨hv, hl⟩ := runByte_fields v l.isLt
  rw [decode_runByte_byteBits, hv, BitVec.eq_of_toNat_eq hl]

/-- Settles O14: `lowSeven b` is the seven-bit field that the header byte and the run byte `b` share. -/
theorem streamElementFields : Obligations.StreamElementFields := by
  refine ⟨fun b rest => ⟨lowSeven b, lowSeven_toNat b, ?_, ?_⟩,
    fun f rest => ⟨decode_countField_append f rest, decode_indexField_append f rest⟩,
    fun x f => ⟨valMsb_nil, valMsb_cons x f⟩, decode_audioControl_memBits⟩
  · simp only [decode_header_byteBits, topBit_eq_decide, decide_eq_true_eq]
  · rw [decode_runByte_byteBits, topBit_eq_decide]

/-- Settles O15, by the number of a run byte and the fields of any byte. -/
theorem runByteFormat : Obligations.RunByteFormat :=
  ⟨fun v _ _ hl => runByte_toNat v hl, decode_runByte_runByte, fun b => ⟨topBit_toNat b, lowSeven_toNat b⟩⟩

end Sys2Proof.Machine

/-! Proofs: the bit writer (40_bitstream_writer.md R103, R104, R106). The closed form of BW.WRITE holds because a bit
string parses in one way only into whole bytes and at most seven pending bits. -/

namespace Sys2Proof.Machine

open Sys2Proof

/-- The `j`-th group of eight bits of a buffer's bit string is the `j`-th byte, whatever follows (R50). -/
theorem memBits_append_group {m : Memory} {j : Nat} (hj : j < m.length) (rest : Bits) :
    ((memBits m ++ rest).drop (8 * j)).take 8 = byteBits m[j] := by
  have hle : 8 * j ≤ (memBits m).length := by rw [memBits_length]; omega
  rw [List.drop_append_of_le_length hle, memBits_drop, List.drop_eq_getElem_cons hj, memBits_cons, List.append_assoc,
    List.take_left' (byteBits_length _)]

/-- A buffer is the bytes of the successive groups of eight bits of its bit string, whatever follows (R50). -/
theorem map_group_memBits_append (m : Memory) (rest : Bits) :
    (List.range m.length).map (fun j => BitVec.ofNat 8 (valMsb (((memBits m ++ rest).drop (8 * j)).take 8))) = m := by
  refine List.ext_getElem (by simp) fun j _ hj => ?_
  rw [List.getElem_map, List.getElem_range, memBits_append_group hj, byteBits_inv]

/-- The writer that holds the bits `S` after the bytes `out`: the full groups of eight are bytes and the rest is
pending (R104). -/
def writerOfBits (out : Memory) (S : Bits) (err : Bool) : Writer where
  out := out ++ (List.range (S.length / 8)).map (fun j => BitVec.ofNat 8 (valMsb ((S.drop (8 * j)).take 8)))
  nacc := S.length % 8
  acc := valMsb (S.drop (8 * (S.length / 8)))
  err := err

/-- A writer that meets the invariant is determined by the bits `S` it holds after its first bytes `out` (R24). -/
theorem eq_writerOfBits {w : Writer} {out more : Memory} {S : Bits} (h : WriterInv w) (hout : w.out = out ++ more)
    (hS : memBits more ++ bitsMsb w.acc w.nacc = S) : w = writerOfBits out S w.err := by
  obtain ⟨hnacc, hacc⟩ := h
  have hlen : S.length = 8 * more.length + w.nacc := by simp [← hS]
  have hbytes : S.length / 8 = more.length := by omega
  have hpending : S.length % 8 = w.nacc := by omega
  have hdrop : S.drop (8 * more.length) = bitsMsb w.acc w.nacc := by
    rw [← hS, List.drop_left' (memBits_length more)]
  rw [writerOfBits, hbytes, hpending, hdrop, valMsb_bitsMsb hacc, ← hS, map_group_memBits_append, ← hout]

/-- The closed form of the loop of BW.WRITE (R104). -/
theorem writeBits_eq_writerOfBits {w : Writer} (v n : Nat) (h : WriterInv w) :
    writeBits w v n = writerOfBits w.out (bitsMsb w.acc w.nacc ++ bitsMsb v n) w.err := by
  obtain ⟨hinv, hbits⟩ := writeBits_bits v n h
  obtain ⟨more, hout⟩ := writeBits_out w v n
  simp only [writerBits, hout, memBits_append, List.append_assoc] at hbits
  rw [← writeBits_err w v n]
  exact eq_writerOfBits hinv hout (List.append_cancel_left hbits)

/-- BW.WRITE whose operands pass the checks of R102 (R103). -/
theorem exec_bwWrite_of_accepted {s : State} {v n : Nat} (herr : s.bw.err = false) (hn : widthOk n)
    (hv : valueOk v n) :
    exec (.bwWrite v n) s = .next ((s.withBw (writeBits s.bw v n)).withResult .ok) := by
  simp [exec, execBwWrite, herr, writeCheck_accepts hn hv]

/-- BW.GET_BYTES refuses a faulted writer (R106). -/
theorem exec_bwGetBytes_of_err {s : State} (herr : s.bw.err = true) :
    exec .bwGetBytes s = .next (s.withResult (.fault .writerFaulted)) := if_pos herr

/-- BW.GET_BYTES of an unfaulted writer (R106). -/
theorem exec_bwGetBytes_of_not_err {s : State} (herr : s.bw.err = false) :
    exec .bwGetBytes s = .next (s.withResult (.bytes s.bw.out)) := by
  simp [exec, execBwGetBytes, herr]

/-- Settles O20, by the two cases of the flag. -/
theorem bwGetBytesReturnsCompletedBytes : Obligations.BwGetBytesReturnsCompletedBytes :=
  ⟨rfl, fun _ => ⟨exec_bwGetBytes_of_err, exec_bwGetBytes_of_not_err⟩⟩

/-- Settles O18, by the closed form of the loop; at most `7 + 32 = 39` bits are pending, so at most four bytes are
complete. -/
theorem bwWriteClosedForm : Obligations.BwWriteClosedForm := by
  intro s v n hinv herr hn1 hn32 hv S q
  have hnacc : s.bw.nacc ≤ 7 := hinv.1
  have hlen : S.length = s.bw.nacc + n := by simp [S]
  refine ⟨rfl, by omega, ?_⟩
  rw [exec_bwWrite_of_accepted herr ⟨hn1, hn32⟩ hv, writeBits_eq_writerOfBits v n hinv, writerOfBits, hlen, herr]

end Sys2Proof.Machine

/-! Proofs: the run-length encoder (42_rle_codec.md R141, R142). A run byte is read as its value and its length, and
every property is an induction over the scan, whose open run has a length of 1 to 127. -/

namespace Sys2Proof.Machine

open Sys2Proof

/-- The elements that a sequence of run bytes stands for: each run is its value as often as its length says (R84). -/
def expandRuns (e : Memory) : Mask := e.flatMap fun b => List.replicate (lowSeven b).toNat (topBit b)

@[simp] theorem expandRuns_nil : expandRuns [] = [] := rfl

@[simp] theorem expandRuns_cons (b : Byte) (e : Memory) :
    expandRuns (b :: e) = List.replicate (lowSeven b).toNat (topBit b) ++ expandRuns e := rfl

theorem length_expandRuns (e : Memory) : (expandRuns e).length = (e.map fun b => (lowSeven b).toNat).sum := by
  simp [expandRuns, List.length_flatMap]

theorem topBit_runByte (v : Bool) {r : Nat} (h : r ≤ maxRun) : topBit (runByte v r) = v :=
  (runByte_fields v (Nat.lt_succ_of_le h)).1

theorem lowSeven_runByte (v : Bool) {r : Nat} (h : r ≤ maxRun) : (lowSeven (runByte v r)).toNat = r :=
  (runByte_fields v (Nat.lt_succ_of_le h)).2

theorem expandRuns_runByte_cons (v : Bool) {r : Nat} (h : r ≤ maxRun) (e : Memory) :
    expandRuns (runByte v r :: e) = List.replicate r v ++ expandRuns e := by
  rw [expandRuns_cons, topBit_runByte v h, lowSeven_runByte v h]

/-- A run is lengthened by a further equal element while it is shorter than 127. -/
theorem rleeRuns_cons_of_extend {v b : Bool} {r : Nat} (h : b = v ∧ r < maxRun) (m : Mask) :
    rleeRuns v r (b :: m) = rleeRuns v (r + 1) m := if_pos h

/-- A run is closed by an element of the other value, or by any element where its length is 127. -/
theorem rleeRuns_cons_of_cut {v b : Bool} {r : Nat} (h : ¬ (b = v ∧ r < maxRun)) (m : Mask) :
    rleeRuns v r (b :: m) = runByte v r :: rleeBytes (b :: m) := if_neg h

/-- The scan emits first a run of the value of the open stretch. -/
theorem exists_rleeRuns_eq_cons (v : Bool) {r : Nat} (h : r ≤ maxRun) (m : Mask) :
    ∃ b e, rleeRuns v r m = b :: e ∧ topBit b = v := by
  induction m generalizing r with
  | nil => exact ⟨_, _, rfl, topBit_runByte v h⟩
  | cons b m ih =>
    by_cases hb : b = v ∧ r < maxRun
    · rw [rleeRuns_cons_of_extend hb]
      exact ih hb.2
    · exact ⟨_, _, rleeRuns_cons_of_cut hb m, topBit_runByte v h⟩

/-- The runs emitted expand to the open stretch and the elements still to be scanned (R142 (b)). -/
theorem expandRuns_rleeRuns (v : Bool) {r : Nat} (h : r ≤ maxRun) (m : Mask) :
    expandRuns (rleeRuns v r m) = List.replicate r v ++ m := by
  induction m generalizing v r with
  | nil => simp [rleeRuns, expandRuns_runByte_cons v h]
  | cons b m ih =>
    by_cases hb : b = v ∧ r < maxRun
    · rw [rleeRuns_cons_of_extend hb, ih v hb.2, hb.1, List.replicate_succ', List.append_assoc, List.singleton_append]
    · rw [rleeRuns_cons_of_cut hb, expandRuns_runByte_cons v h, rleeBytes, ih b (by decide)]
      rfl

/-- No run emitted is empty (R142 (a)). -/
theorem one_le_lowSeven_of_mem_rleeRuns {v : Bool} {r : Nat} (hr : 1 ≤ r) (h : r ≤ maxRun) {m : Mask} :
    ∀ x ∈ rleeRuns v r m, 1 ≤ (lowSeven x).toNat := by
  induction m generalizing v r with
  | nil => simpa [rleeRuns, lowSeven_runByte v h] using hr
  | cons b m ih =>
    by_cases hb : b = v ∧ r < maxRun
    · rw [rleeRuns_cons_of_extend hb]
      exact ih (Nat.le_add_left 1 r) hb.2
    · rw [rleeRuns_cons_of_cut hb, List.forall_mem_cons, lowSeven_runByte v h]
      exact ⟨hr, ih le_rfl (by decide)⟩

/-- A run is followed by a run of the same value only where its length is 127. -/
def SplitOnlyWhenFull (b b' : Byte) : Prop := topBit b = topBit b' → (lowSeven b).toNat = maxRun

/-- A stretch is cut only at length 127 (R142 (c)). -/
theorem isChain_rleeRuns (v : Bool) {r : Nat} (h : r ≤ maxRun) (m : Mask) :
    (rleeRuns v r m).IsChain SplitOnlyWhenFull := by
  induction m generalizing v r with
  | nil => exact List.isChain_singleton _
  | cons b m ih =>
    by_cases hb : b = v ∧ r < maxRun
    · rw [rleeRuns_cons_of_extend hb]
      exact ih v hb.2
    · obtain ⟨x, e, hx, hxb⟩ := exists_rleeRuns_eq_cons b (r := 1) (by decide) m
      have hcut : SplitOnlyWhenFull (runByte v r) x := by
        intro heq
        rw [topBit_runByte v h, hxb] at heq
        rw [lowSeven_runByte v h]
        exact le_antisymm h (not_lt.mp fun hlt => hb ⟨heq.symm, hlt⟩)
      rw [rleeRuns_cons_of_cut hb, rleeBytes, hx]
      exact List.IsChain.cons_cons hcut (hx ▸ ih b (by decide))

/-- The runs of a stretch of `n` elements equal to `v`: as many of length 127 as fit, and one of what is left over
(R142 (c)). -/
def stretchRuns (v : Bool) (n : Nat) : Memory :=
  List.replicate (n / maxRun) (runByte v maxRun) ++ if n % maxRun = 0 then [] else [runByte v (n % maxRun)]

theorem stretchRuns_of_le (v : Bool) {r : Nat} (hr : 1 ≤ r) (h : r ≤ maxRun) : stretchRuns v r = [runByte v r] := by
  obtain hlt | rfl := h.lt_or_eq
  · simp [stretchRuns, Nat.div_eq_of_lt hlt, Nat.mod_eq_of_lt hlt, Nat.one_le_iff_ne_zero.mp hr]
  · simp [stretchRuns]

theorem stretchRuns_maxRun_add (v : Bool) (n : Nat) :
    stretchRuns v (maxRun + n) = runByte v maxRun :: stretchRuns v n := by
  simp [stretchRuns, Nat.add_div_left, List.replicate_succ]

/-- A stretch that ends here is emitted greedily from the left, and the scan starts again behind it (R141). -/
theorem rleeRuns_replicate_append {v : Bool} {r : Nat} (hr : 1 ≤ r) (h : r ≤ maxRun) (k : Nat) {rest : Mask}
    (hrest : rest.head? ≠ some v) :
    rleeRuns v r (List.replicate k v ++ rest) = stretchRuns v (r + k) ++ rleeBytes rest := by
  induction k generalizing r with
  | zero =>
    have hone : stretchRuns v (r + 0) = [runByte v r] := stretchRuns_of_le v hr h
    rw [hone]
    cases rest with
    | nil => rfl
    | cons b m => exact rleeRuns_cons_of_cut (fun hb => hrest (congrArg some hb.1)) m
  | succ k ih =>
    rw [List.replicate_succ, List.cons_append]
    obtain hlt | rfl := h.lt_or_eq
    · rw [rleeRuns_cons_of_extend ⟨rfl, hlt⟩, ih (Nat.le_add_left 1 r) hlt, Nat.add_right_comm, Nat.add_assoc]
    · rw [rleeRuns_cons_of_cut (fun hb => hb.2.false), rleeBytes, ih le_rfl (by decide), stretchRuns_maxRun_add,
        Nat.add_comm 1 k, List.cons_append]

theorem expandRuns_rleeBytes (m : Mask) : expandRuns (rleeBytes m) = m := by
  cases m with
  | nil => rfl
  | cons b m => exact expandRuns_rleeRuns b (r := 1) (by decide) m

theorem one_le_lowSeven_of_mem_rleeBytes (m : Mask) : ∀ b ∈ rleeBytes m, 1 ≤ (lowSeven b).toNat := by
  cases m with
  | nil => exact List.forall_mem_nil _
  | cons b m => exact one_le_lowSeven_of_mem_rleeRuns le_rfl (by decide)

theorem isChain_rleeBytes (m : Mask) : (rleeBytes m).IsChain SplitOnlyWhenFull := by
  cases m with
  | nil => exact List.isChain_nil
  | cons b m => exact isChain_rleeRuns b (by decide) m

theorem rleeBytes_replicate_append {v : Bool} {n : Nat} (hn : 1 ≤ n) {rest : Mask} (hrest : rest.head? ≠ some v) :
    rleeBytes (List.replicate n v ++ rest) = stretchRuns v n ++ rleeBytes rest := by
  obtain ⟨k, rfl⟩ := Nat.exists_eq_add_of_le hn
  rw [Nat.add_comm, List.replicate_succ, List.cons_append, rleeBytes,
    rleeRuns_replicate_append le_rfl (by decide) k hrest, Nat.add_comm]

/-- The lengths of the runs emitted sum to the length of the mask (R142 (b)). -/
theorem sum_lowSeven_rleeBytes (m : Mask) : ((rleeBytes m).map fun b => (lowSeven b).toNat).sum = m.length := by
  rw [← length_expandRuns, expandRuns_rleeBytes]

/-- At most one byte for each element, as no run is empty (R142 (d)). -/
theorem length_rleeBytes_le (m : Mask) : (rleeBytes m).length ≤ m.length := by
  have hsum := List.length_le_sum_of_one_le ((rleeBytes m).map fun b => (lowSeven b).toNat)
    (List.forall_mem_map.mpr (one_le_lowSeven_of_mem_rleeBytes m))
  rwa [List.length_map, sum_lowSeven_rleeBytes] at hsum

/-- At least one byte for each 127 elements, as no run is longer (R142 (d)). -/
theorem length_le_length_rleeBytes_mul_maxRun (m : Mask) : m.length ≤ (rleeBytes m).length * maxRun := by
  have hsum := List.sum_le_card_nsmul ((rleeBytes m).map fun b => (lowSeven b).toNat) maxRun
    (List.forall_mem_map.mpr fun b _ => Nat.le_of_lt_succ (lowSeven b).isLt)
  rwa [List.length_map, sum_lowSeven_rleeBytes, smul_eq_mul] at hsum

/-- The payload that RLEE.ENCODE answers is determined by its mask. -/
theorem eq_rleeBytes_of_exec {m : Mask} {s : State} {e : Memory}
    (h : exec (.rleeEncode m) s = .next (s.withResult (.bytes e))) : e = rleeBytes m := by
  have hresult := congrArg State.result (Host.Outcome.next.inj ((exec_rleeEncode m s).symm.trans h))
  exact (Result.bytes.inj (Option.some.inj hresult)).symm

/-- Settles O29, by the scan of RLEE.ENCODE: its bytes expand to the mask, and a stretch is emitted greedily. -/
theorem rleEncoderOutput : Obligations.RleEncoderOutput := by
  refine fun m => ⟨rfl, rleeBytes m, exec_rleeEncode m, one_le_lowSeven_of_mem_rleeBytes m, expandRuns_rleeBytes m,
    sum_lowSeven_rleeBytes m, isChain_rleeBytes m, ?_, fun hm => by rw [hm, rleeBytes], ?_, length_rleeBytes_le m⟩
  · intro n v rest s e' hn hrest hm hexec
    rw [hm, rleeBytes_replicate_append hn hrest, eq_rleeBytes_of_exec hexec, stretchRuns]
  · have hlen : m.length ≤ (rleeBytes m).length * 127 := length_le_length_rleeBytes_mul_maxRun m
    omega

end Sys2Proof.Machine

/-! Proofs: the positional encoder (43_positional_codec.md R161, R163). Its payload is what a writer holds after the
fields of equal width and one flush. -/

namespace Sys2Proof.Machine

open Sys2Proof

theorem length_flatMap_bitsMsb (w : Nat) (vs : List Nat) :
    (vs.flatMap fun v => bitsMsb v w).length = vs.length * w := by
  simp [List.length_flatMap]

/-- The bytes after a flush are the accepted bits and zero bits up to a whole byte, no more of them than needed
(R105). -/
theorem flushWriter_closed {w : Writer} (h : WriterInv w) :
    memBits (flushWriter w).out = writerBits w ++
        List.replicate (8 * (flushWriter w).out.length - (writerBits w).length) false ∧
      (flushWriter w).out.length = ((writerBits w).length + 7) / 8 := by
  obtain ⟨-, hbits⟩ := flushWriter_bits h
  have hlen := congrArg List.length hbits
  rw [memBits_length, List.length_append, List.length_replicate] at hlen
  have hpad : 8 * (flushWriter w).out.length - (writerBits w).length = (8 - w.nacc) % 8 := by omega
  exact ⟨by rw [hpad, hbits], by omega⟩

/-- The closed form of the fields of a positional payload and their flush (R161). -/
theorem flushWriter_writeFields (w : Nat) (vs : List Nat) :
    memBits (flushWriter (writeFields emptyWriter w vs)).out = vs.flatMap (fun v => bitsMsb v w) ++
        List.replicate (8 * (flushWriter (writeFields emptyWriter w vs)).out.length - vs.length * w) false ∧
      (flushWriter (writeFields emptyWriter w vs)).out.length = (vs.length * w + 7) / 8 := by
  obtain ⟨hinv, hbits⟩ := writeFields_bits w vs emptyWriter_inv
  have hflush := flushWriter_closed hinv
  rwa [hbits, emptyWriter_bits, List.nil_append, length_flatMap_bitsMsb] at hflush

/-- Where the count and every index fit the width there is no overflow (R163). -/
theorem poseOverflow_eq_false {idx : List Nat} {w : Nat} (hlen : idx.length < 2 ^ w) (hidx : ∀ x ∈ idx, x < 2 ^ w) :
    poseOverflow idx w = false := by
  cases hlast : idx.getLast? with
  | none => simp [poseOverflow, hlen, hlast]
  | some x => simp [poseOverflow, hlen, hlast, hidx x (List.mem_of_getLast? hlast)]

/-- The payload of a mask whose count and indices fit the width (R161). -/
theorem poseBytes_of_fits {m : Mask} {w : Nat} (hcount : m.count true < 2 ^ w)
    (hidx : ∀ x : Nat, m[x]? = some true → x < 2 ^ w) :
    poseBytes m w = some (flushWriter (writeFields emptyWriter w ((ones m).length :: ones m))).out :=
  if_neg (Bool.eq_false_iff.mp
    (poseOverflow_eq_false (by rwa [ones_length]) fun x hx => hidx x ((mem_ones m x).mp hx)))

/-- Settles O34, by the closed form of the flushed fields; the count field alone makes the payload a byte long. -/
theorem poseEncodePayload : Obligations.PoseEncodePayload := by
  intro m w hw1 hw32 hcount hidx
  obtain ⟨hbits, hlen⟩ := flushWriter_writeFields w ((ones m).length :: ones m)
  rw [List.length_cons] at hbits hlen
  have hcountField : w ≤ ((ones m).length + 1) * w := Nat.le_mul_of_pos_left w (Nat.succ_pos _)
  exact ⟨_, ones m, rfl, exec_poseEncode_of_some ⟨hw1, hw32⟩ (poseBytes_of_fits hcount hidx), ones_ascending m,
    mem_ones m, ones_length m, hbits, hlen, by omega⟩

end Sys2Proof.Machine

/-! Proofs: the frame encoder (44_frame_encoder.md R184 to R186). INDEX_BITS of a legal block is a width POSE accepts
(R6, R7), so the positional candidate of a frame is POSE's answer for the delta mask, or there is none. -/

namespace Sys2Proof.Machine

open Sys2Proof

/-- The search finds the ceiling of the logarithm where it lies among the exponents looked at. -/
theorem leastExponent_eq_clog {n fuel start : Nat} (hstart : start ≤ Nat.clog 2 n)
    (hfuel : Nat.clog 2 n ≤ start + fuel) : leastExponent n fuel start = Nat.clog 2 n := by
  induction fuel generalizing start with
  | zero => exact le_antisymm hstart hfuel
  | succ fuel ih =>
    by_cases h : n ≤ 2 ^ start
    · exact (if_pos h).trans (le_antisymm hstart (Nat.clog_le_of_le_pow h))
    · have hlt : start < Nat.clog 2 n := (Nat.lt_clog_iff_pow_lt Nat.one_lt_two).mpr (not_le.mp h)
      exact (if_neg h).trans (ih hlt (by omega))

theorem clog2_eq_clog (n : Nat) : clog2 n = Nat.clog 2 n :=
  leastExponent_eq_clog (Nat.zero_le _) (by
    rw [Nat.zero_add]
    exact Nat.clog_le_of_le_pow Nat.lt_two_pow_self.le)

/-- INDEX_BITS of a legal configuration is a width BW and BR accept (R7). -/
theorem widthOk_indexBits {c : Config} (h : c.legal) : widthOk (indexBits c) := by
  obtain ⟨hmin, hmax⟩ := h
  rw [indexBits, clog2_eq_clog]
  exact ⟨Nat.clog_pos Nat.one_lt_two hmin, Nat.clog_le_of_le_pow hmax⟩

/-- An operation that changes nothing but the result answers one result. -/
theorem result_unique_of_exec {i : Instr} {s : State} {r r' : Result} (h : exec i s = .next (s.withResult r))
    (h' : exec i s = .next (s.withResult r')) : r = r' :=
  Option.some.inj (congrArg State.result (Host.Outcome.next.inj (h.symm.trans h')))

/-- Without a positional candidate RLE is selected (R185). -/
theorem selectPayload_of_none {m : Mask} {w : Nat} (hb : poseBytes m w = none) :
    selectPayload m w = (hdrRleByte, rleeBytes m) := by
  simp [selectPayload, hb]

/-- RLE is selected where it is not longer, so on a tie as well (R184, R185). -/
theorem selectPayload_of_rle_le {m : Mask} {w : Nat} {b : Memory} (hb : poseBytes m w = some b)
    (hle : (rleeBytes m).length ≤ b.length) : selectPayload m w = (hdrRleByte, rleeBytes m) := by
  simp [selectPayload, hb, hle]

/-- The positional candidate is selected where it is shorter (R184, R185). -/
theorem selectPayload_of_pos_lt {m : Mask} {w : Nat} {b : Memory} (hb : poseBytes m w = some b)
    (hlt : b.length < (rleeBytes m).length) : selectPayload m w = (hdrPosByte, b) := by
  simp [selectPayload, hb, hlt]

/-- FE.ENCODE_FRAME whose operands pass the checks of R183, with the header byte and the payload selected for the delta
mask (R184, R186). -/
theorem exec_feEncodeFrame_of_accepted {s : State} {ac : Memory} {px : Mask} {h : Byte} {payload : Memory}
    (hac : ac.length = acBytes) (hpx : px.length = s.cfg.totalPixels)
    (hsel : selectPayload (xorMask px s.fe.prev) (indexBits s.cfg) = (h, payload)) :
    exec (.feEncodeFrame ac px) s = .next ((s.withPrev px).withResult (.record (ac ++ h :: payload))) := by
  simp [exec, execFeEncodeFrame, frameCheck, hac, hpx, encodeRecord, hsel]

/-- Settles O39, by the three cases of the selection: no positional candidate, one that RLE does not exceed, and a
shorter one. -/
theorem feEncodeFrameRecord : Obligations.FeEncodeFrameRecord := by
  intro s ac px rle p hlegal hac hpx hrle hpose
  have hw : widthOk (indexBits s.cfg) := widthOk_indexBits hlegal
  obtain rfl := eq_rleeBytes_of_exec hrle
  refine ⟨rfl, ?_⟩
  cases hb : poseBytes (xorMask px s.fe.prev) (indexBits s.cfg) with
  | none =>
    obtain rfl := result_unique_of_exec hpose (exec_poseEncode_of_none hw hb s)
    exact ⟨_, _, exec_feEncodeFrame_of_accepted hac hpx (selectPayload_of_none hb), .inl ⟨rfl, rfl⟩, nofun⟩
  | some b =>
    obtain rfl := result_unique_of_exec hpose (exec_poseEncode_of_some hw hb s)
    obtain hle | hlt := le_or_gt (rleeBytes (xorMask px s.fe.prev)).length b.length
    · refine ⟨_, _, exec_feEncodeFrame_of_accepted hac hpx (selectPayload_of_rle_le hb hle), .inl ⟨rfl, rfl⟩, ?_⟩
      rintro _ ⟨⟩
      exact (if_pos hle).symm
    · refine ⟨_, _, exec_feEncodeFrame_of_accepted hac hpx (selectPayload_of_pos_lt hb hlt), .inr ⟨rfl, rfl⟩, ?_⟩
      rintro _ ⟨⟩
      exact (if_neg hlt.not_ge).symm

end Sys2Proof.Machine

/-! Proofs: the frame decoder (45_frame_decoder.md R204 to R209). FD.STEP answers `End` or delivers the record at the
cursor; its payload is the answer of RLED or POSD for the rest of the stream. -/

namespace Sys2Proof.Machine

open Sys2Proof

/-- The reserved bits of a header are not all zero (R82). -/
theorem reservedSet_lowSeven (h : Byte) : reservedSet (lowSeven h) = decide (h.toNat % 128 ≠ 0) := by
  simp [reservedSet, ← lowSeven_toNat, ← BitVec.toNat_inj]

theorem decodePayload_of_rle {h : Byte} (hm : h.toNat < 128) (c : Config) (rest : Memory) :
    decodePayload c h rest = rledScan rest c.totalPixels := by
  simp [decodePayload, topBit_eq_decide, hm]

theorem decodePayload_of_pos {h : Byte} (hm : ¬ h.toNat < 128) (c : Config) (rest : Memory) :
    decodePayload c h rest = posdScan rest c.totalPixels (indexBits c) := by
  simp [decodePayload, topBit_eq_decide, not_lt.mp hm]

/-- The private decoder's payload is what the operation of the decoder selected by the header answers (R204, R206). -/
theorem exec_selectedDecoder {s : State} (hlegal : s.cfg.legal) (h : Byte) (rest : Memory) :
    (if h.toNat < 128 then exec (.rledDecode rest s.cfg.totalPixels) s
      else exec (.posdDecode rest s.cfg.totalPixels (indexBits s.cfg)) s) =
      .next (s.withResult (.mask (decodePayload s.cfg h rest).1 (decodePayload s.cfg h rest).2)) := by
  split
  case isTrue hm => rw [decodePayload_of_rle hm, exec_rledDecode]
  case isFalse hm => rw [decodePayload_of_pos hm, exec_posdDecode_of_widthOk (widthOk_indexBits hlegal)]

/-- FD.STEP with fewer than three bytes left (R205). -/
theorem exec_fdStep_of_short {s : State} (hshort : s.fd.stream.length - s.fd.pos < 3) :
    exec .fdStep s = .next ((s.withScan .idle).withResult .endOfStream) := by
  obtain ⟨-, hnone⟩ | ⟨a, b, h, rest, -, hlen, -⟩ := decodeRecord_cases s.cfg s.fd
  · simp [exec, execFdStep, hnone]
  · omega

/-- FD.STEP on a record (R204, R207 to R209). -/
theorem exec_fdStep_of_record {s : State} {a b h : Byte} {rest : Memory}
    (hrec : s.fd.stream.drop s.fd.pos = a :: b :: h :: rest) :
    exec .fdStep s = finishRecord a b (reservedSet (lowSeven h)) (decodePayload s.cfg h rest).1
      (decodePayload s.cfg h rest).2 s := by
  simp [exec, execFdStep, decodeRecord, restFrom, hrec]

/-- A record at the cursor ends where the stream ends. -/
theorem pos_add_length_of_record {d : Decoder} {a b h : Byte} {rest : Memory}
    (hrec : d.stream.drop d.pos = a :: b :: h :: rest) : d.pos + 3 + rest.length = d.stream.length := by
  have hlen := congrArg List.length hrec
  simp only [List.length_drop, List.length_cons] at hlen
  omega

/-- Settles O43: the payload is the selected decoder's answer, and FD.STEP finishes the record with it. -/
theorem fdStepDeliversRecord : Obligations.FdStepDeliversRecord := by
  refine fun s hlegal => ⟨rfl, fun hshort => ⟨_, exec_fdStep_of_short hshort, rfl, rfl⟩, fun a b h rest hrec => ?_⟩
  obtain ⟨hmask, hcount⟩ := decodePayload_bounds s.cfg h rest
  have hend := pos_add_length_of_record hrec
  refine ⟨_, _, _, exec_selectedDecoder hlegal h rest, exec_fdStep_of_record hrec, ?_, rfl, hmask, hcount, ?_,
    rfl, rfl, rfl, rfl, rfl⟩
  · rw [← reservedSet_lowSeven]
    rfl
  · show s.fd.pos + 3 + (decodePayload s.cfg h rest).2 ≤ s.fd.stream.length
    omega

end Sys2Proof.Machine

/-! Proofs: the operands on the port (log 3) and the decoder (30_encoding.md R80 to R91). Each operand's decoder answers
exactly on the operand's encoding, so an instruction and its bits determine each other. -/

namespace Sys2Proof.Machine

open Sys2Proof

/-- Taking bits answers exactly where there are enough of them. -/
theorem takeBits_eq_ok_iff {n : Nat} {s f r : Bits} : takeBits n s = .ok (f, r) ↔ s = f ++ r ∧ f.length = n := by
  constructor
  · intro h
    unfold takeBits at h
    split at h
    case isTrue hle =>
      obtain ⟨rfl, rfl⟩ := Prod.mk.inj (Except.ok.inj h)
      exact ⟨(List.take_append_drop n s).symm, List.length_take_of_le hle⟩
    case isFalse => cases h
  · rintro ⟨rfl, hlen⟩
    exact takeBits_append hlen r

/-! ### Natural operands -/

/-- The number of bytes allowed makes no difference where it is enough. -/
theorem encodeNatFuel_congr {f g n : Nat} (hf : n ≤ f) (hg : n ≤ g) : encodeNatFuel f n = encodeNatFuel g n := by
  induction f generalizing g n with
  | zero =>
    obtain rfl := Nat.le_zero.mp hf
    cases g <;> simp [encodeNatFuel]
  | succ f ih =>
    cases g with
    | zero =>
      obtain rfl := Nat.le_zero.mp hg
      simp [encodeNatFuel]
    | succ g =>
      unfold encodeNatFuel
      split
      · rfl
      · rw [ih (by omega) (by omega : n / 128 ≤ g)]

theorem encodeNat_of_lt {n : Nat} (h : n < 128) : encodeNat n = false :: bitsMsb n 7 := by
  cases n <;> simp [encodeNat, encodeNatFuel, h]

theorem encodeNat_of_ge {n : Nat} (h : 128 ≤ n) :
    encodeNat n = true :: bitsMsb (n % 128) 7 ++ encodeNat (n / 128) := by
  obtain ⟨k, rfl⟩ : ∃ k, n = k + 1 := ⟨n - 1, by omega⟩
  rw [encodeNat, encodeNatFuel, if_neg h.not_gt, encodeNat, encodeNatFuel_congr (by omega) le_rfl]

/-- A byte without the continuation bit is the last one. -/
theorem decodeNat_last {f : Bits} (hf : f.length = 7) (r : Bits) :
    decodeNat (false :: (f ++ r)) = .ok (valMsb f, r) := by
  match f, hf with
  | [_, _, _, _, _, _, _], _ => simp [decodeNat]

/-- A byte with the continuation bit is followed by the rest of the number, which is not zero. -/
theorem decodeNat_more {f : Bits} (hf : f.length = 7) {s r : Bits} {q : Nat} (hq : decodeNat s = .ok (q, r))
    (hpos : q ≠ 0) : decodeNat (true :: (f ++ s)) = .ok (valMsb f + 128 * q, r) := by
  match f, hf with
  | [_, _, _, _, _, _, _], _ => simp [decodeNat, hq, hpos]

/-- Everything the decoder of a natural operand can answer with. -/
theorem decodeNat_cases {s r : Bits} {n : Nat} (h : decodeNat s = .ok (n, r)) :
    ∃ f : Bits, f.length = 7 ∧ (s = false :: (f ++ r) ∧ n = valMsb f ∨
      ∃ s' q, s = true :: (f ++ s') ∧ decodeNat s' = .ok (q, r) ∧ q ≠ 0 ∧ n = valMsb f + 128 * q) := by
  unfold decodeNat at h
  split at h
  case h_1 more b6 b5 b4 b3 b2 b1 b0 s' =>
    refine ⟨[b6, b5, b4, b3, b2, b1, b0], rfl, ?_⟩
    cases more with
    | false =>
      obtain ⟨rfl, rfl⟩ := Prod.mk.inj (Except.ok.inj h)
      exact .inl ⟨rfl, rfl⟩
    | true =>
      cases hq : decodeNat s' with
      | error e => simp [hq] at h
      | ok p =>
        obtain ⟨q, r'⟩ := p
        simp only [hq, if_true] at h
        split at h
        · cases h
        · obtain ⟨rfl, rfl⟩ := Prod.mk.inj (Except.ok.inj h)
          exact .inr ⟨s', q, rfl, hq, ‹_›, rfl⟩
  case h_2 => cases h

theorem decodeNat_encodeNat (n : Nat) (r : Bits) : decodeNat (encodeNat n ++ r) = .ok (n, r) := by
  induction n using Nat.strong_induction_on with
  | _ n ih =>
    obtain hlt | hge := lt_or_ge n 128
    · rw [encodeNat_of_lt hlt, List.cons_append, decodeNat_last (bitsMsb_length _ _), valMsb_bitsMsb hlt]
    · have hmod : n % 128 < 2 ^ 7 := Nat.mod_lt _ (by decide)
      rw [encodeNat_of_ge hge, List.cons_append, List.cons_append, List.append_assoc,
        decodeNat_more (bitsMsb_length _ _) (ih (n / 128) (by omega)) (by omega), valMsb_bitsMsb hmod,
        Nat.mod_add_div]

/-- A natural operand has one encoding (log 3). -/
theorem decodeNat_eq_ok_iff {s r : Bits} {n : Nat} : decodeNat s = .ok (n, r) ↔ s = encodeNat n ++ r := by
  constructor
  · intro h
    induction hk : s.length using Nat.strong_induction_on generalizing s n with
    | _ k ih =>
      obtain ⟨f, hf, ⟨rfl, rfl⟩ | ⟨s', q, rfl, hq, hpos, rfl⟩⟩ := decodeNat_cases h
      · have hlt : valMsb f < 128 := by simpa [hf] using valMsb_lt f
        rw [encodeNat_of_lt hlt, ← hf, bitsMsb_valMsb, List.cons_append]
      · have hlt : valMsb f < 128 := by simpa [hf] using valMsb_lt f
        have hmod : (valMsb f + 128 * q) % 128 = valMsb f := by omega
        have hdiv : (valMsb f + 128 * q) / 128 = q := by omega
        have hs' : s' = encodeNat q ++ r := ih s'.length (by simp [← hk]) hq rfl
        rw [encodeNat_of_ge (by omega), hmod, hdiv, ← hf, bitsMsb_valMsb, hs', List.cons_append, List.cons_append,
          List.append_assoc]
  · rintro rfl
    exact decodeNat_encodeNat n r

/-! ### Sequence operands -/

/-- Whole groups of eight bits are the bits of the bytes assembled from them (R52). -/
theorem memBits_bitsToBytes {s : Bits} {n : Nat} (h : s.length = 8 * n) :
    memBits (bitsToBytes s) = s ∧ (bitsToBytes s).length = n := by
  induction n generalizing s with
  | zero =>
    obtain rfl := List.length_eq_zero_iff.mp h
    exact ⟨rfl, rfl⟩
  | succ n ih =>
    have hhead : (s.take 8).length = 8 := List.length_take_of_le (by omega)
    have htail : (s.drop 8).length = 8 * n := by rw [List.length_drop]; omega
    obtain ⟨hbits, hlen⟩ := ih htail
    rw [← List.take_append_drop 8 s, bitsToBytes_append _ _ hhead, memBits_cons, byteBits_ofBits _ hhead, hbits,
      List.length_cons, hlen]
    exact ⟨rfl, rfl⟩

theorem decodeBytes_eq_ok_iff {s r : Bits} {b : Memory} : decodeBytes s = .ok (b, r) ↔ s = encodeBytes b ++ r := by
  constructor
  · intro h
    unfold decodeBytes at h
    split at h
    case h_1 => cases h
    case h_2 n s' hn =>
      split at h
      case h_1 => cases h
      case h_2 body r' hbody =>
        obtain ⟨rfl, rfl⟩ := Prod.mk.inj (Except.ok.inj h)
        obtain ⟨rfl, hlen⟩ := takeBits_eq_ok_iff.mp hbody
        obtain ⟨hbits, hn'⟩ := memBits_bitsToBytes hlen
        rw [decodeNat_eq_ok_iff.mp hn, encodeBytes, hbits, hn', List.append_assoc]
  · rintro rfl
    simp [decodeBytes, encodeBytes, decodeNat_encodeNat, takeBits_append, bitsToBytes_memBits]

theorem decodeMask_eq_ok_iff {s r : Bits} {m : Mask} : decodeMask s = .ok (m, r) ↔ s = encodeMask m ++ r := by
  constructor
  · intro h
    unfold decodeMask at h
    split at h
    case h_1 => cases h
    case h_2 n s' hn =>
      obtain ⟨rfl, rfl⟩ := takeBits_eq_ok_iff.mp h
      rw [decodeNat_eq_ok_iff.mp hn, encodeMask, List.append_assoc]
  · rintro rfl
    simp [decodeMask, encodeMask, decodeNat_encodeNat, takeBits_append]

theorem withOperand_eq_ok_iff {α β : Type} {p : Bits → Except Reject (α × Bits)} {f : α → Bits → Except Reject β}
    {s : Bits} {x : β} : withOperand p f s = .ok x ↔ ∃ a r, p s = .ok (a, r) ∧ f a r = .ok x := by
  unfold withOperand
  cases p s with
  | error e => simp
  | ok q => exact ⟨fun h => ⟨q.1, q.2, rfl, h⟩, fun ⟨_, _, hq, h⟩ => by rwa [Except.ok.inj hq]⟩

/-! ### Operations -/

/-- The first eight bits are the code of an operation (R90). -/
theorem decode_command_byteBits (c : Byte) (s : Bits) :
    decode .command (byteBits c ++ s) = decodeOperation c.toNat s := by
  have hcode : valMsb (byteBits c) = c.toNat := valMsb_bitsMsb c.isLt
  simp [decode, Slot.width, takeBits_append (byteBits_length c), hcode]

theorem decodeBytes_encodeBytes (b : Memory) (r : Bits) : decodeBytes (encodeBytes b ++ r) = .ok (b, r) :=
  decodeBytes_eq_ok_iff.mpr rfl

theorem decodeMask_encodeMask (m : Mask) (r : Bits) : decodeMask (encodeMask m ++ r) = .ok (m, r) :=
  decodeMask_eq_ok_iff.mpr rfl

/-- The code and the operands of an operation lead back to it (R90, log 3). -/
theorem decode_command_encode {i : Instr} (h : i.slot = .command) (rest : Bits) :
    decode .command (encode i ++ rest) = .ok (i, rest) := by
  cases i
  case ac | hdrRle | hdrPos | run | posCount | posIndex | posPad => cases h
  all_goals simp [encode, decode_command_byteBits, decodeOperation, withOperand, decodeNat_encodeNat,
    decodeBytes_encodeBytes, decodeMask_encodeMask]

/-- What an operation is decoded from is its code and its operands (R90, log 3). -/
theorem encode_of_decodeOperation {code : Nat} {s rest : Bits} {i : Instr}
    (h : decodeOperation code s = .ok (i, rest)) :
    i.slot = .command ∧ encode i ++ rest = bitsMsb code 8 ++ s := by
  unfold decodeOperation at h
  split at h
  all_goals simp only [withOperand_eq_ok_iff, decodeNat_eq_ok_iff, decodeBytes_eq_ok_iff, decodeMask_eq_ok_iff,
    Except.ok.injEq, Prod.mk.injEq, reduceCtorEq] at h
  case h_1 | h_3 | h_4 | h_7 | h_8 | h_13 | h_16 | h_17 | h_18 | h_19 =>
    obtain ⟨rfl, rfl⟩ := h
    exact ⟨rfl, rfl⟩
  case h_5 | h_6 | h_9 | h_15 =>
    obtain ⟨_, _, rfl, rfl, rfl⟩ := h
    exact ⟨rfl, by simp [encode, byteBits]⟩
  case h_2 | h_10 | h_11 | h_14 =>
    obtain ⟨_, _, rfl, _, _, rfl, rfl, rfl⟩ := h
    exact ⟨rfl, by simp [encode, byteBits]⟩
  case h_12 =>
    obtain ⟨_, _, rfl, _, _, rfl, _, _, rfl, rfl, rfl⟩ := h
    exact ⟨rfl, by simp [encode, byteBits]⟩

/-! ### Stream elements -/

/-- The bits of a byte and a field of seven bits behind its top bit (R81, R84). -/
theorem eq_cons_bitsMsb_of_length {f : Bits} (h : f.length = 8) :
    f.headD false :: bitsMsb (BitVec.ofNat 7 (valMsb f.tail)).toNat 7 = f := by
  match f, h with
  | x :: f, h =>
    have hf : f.length = 7 := by simpa using h
    have hlt : valMsb f < 2 ^ 7 := hf ▸ valMsb_lt f
    rw [List.headD_cons, List.tail_cons, BitVec.toNat_ofNat, Nat.mod_eq_of_lt hlt]
    congr 1
    rw [← hf, bitsMsb_valMsb]

/-- A stream element is the bits at its place and says which place that is (R80 to R85). -/
theorem encode_decodeElement {slot : Slot} {f : Bits} (hs : slot ≠ .command) (hf : f.length = slot.width) :
    encode (decodeElement slot f) = f ∧ (decodeElement slot f).slot = slot := by
  cases slot with
  | command => exact absurd rfl hs
  | audioControl =>
    have htake : (f.take 8).length = 8 := List.length_take_of_le (by rw [hf]; decide)
    have hdrop : (f.drop 8).length = 8 := by rw [List.length_drop, hf]; rfl
    exact ⟨by rw [decodeElement, encode, byteBits_ofBits _ htake, byteBits_ofBits _ hdrop, List.take_append_drop], rfl⟩
  | header =>
    have hbits := eq_cons_bitsMsb_of_length hf
    unfold decodeElement
    cases hx : f.headD false <;> rw [hx] at hbits
    · exact ⟨hbits, rfl⟩
    · exact ⟨hbits, rfl⟩
  | runByte => exact ⟨eq_cons_bitsMsb_of_length hf, rfl⟩
  | countField w => exact ⟨by rw [decodeElement, encode, ← show f.length = w from hf, bitsMsb_valMsb], rfl⟩
  | indexField w => exact ⟨by rw [decodeElement, encode, ← show f.length = w from hf, bitsMsb_valMsb], rfl⟩
  | padding n => exact ⟨rfl, congrArg Slot.padding hf⟩

/-- The bits of a well-formed stream element are as many as its place asks for, and lead back to it (R80 to R85). -/
theorem decodeElement_encode {i : Instr} (hs : i.slot ≠ .command) (hwf : i.wellFormed = true) :
    (encode i).length = i.slot.width ∧ decodeElement i.slot (encode i) = i := by
  cases i
  case ac a b =>
    exact ⟨by simp [encode, Instr.slot, Slot.width],
      by simp [encode, Instr.slot, decodeElement, byteBits_inv, List.take_left', List.drop_left']⟩
  case hdrRle r | hdrPos r | run _ r =>
    have hr : valMsb (bitsMsb r.toNat 7) = r.toNat := valMsb_bitsMsb r.isLt
    exact ⟨by simp [encode, Instr.slot, Slot.width], by simp [encode, Instr.slot, decodeElement, hr]⟩
  case posCount w v | posIndex w v =>
    obtain ⟨-, -, hv⟩ : 1 ≤ w ∧ w ≤ 32 ∧ v < 2 ^ w := of_decide_eq_true hwf
    exact ⟨bitsMsb_length v w, by simp [encode, Instr.slot, decodeElement, valMsb_bitsMsb hv]⟩
  case posPad bits => exact ⟨rfl, rfl⟩
  all_goals exact absurd rfl hs

/-- Settles O10, by the operands of an operation and the fields of a stream element. -/
theorem decodeOfEncode : Obligations.DecodeOfEncode := by
  intro i rest hwf
  by_cases hs : i.slot = .command
  · rw [hs, decode_command_encode hs]
  · obtain ⟨hlen, helem⟩ := decodeElement_encode hs hwf
    rw [decode_element_append hs hlen, helem]

/-- Settles O11: a decoded instruction is an operation with its operands, or the bits at the place of an element. -/
theorem encodeOfDecode : Obligations.EncodeOfDecode := by
  intro slot s rest i h
  unfold decode at h
  split at h
  case h_1 => cases h
  case h_2 f r hf =>
    obtain ⟨rfl, hlen⟩ := takeBits_eq_ok_iff.mp hf
    split at h
    case isTrue hslot =>
      subst hslot
      obtain ⟨hs, hbits⟩ := encode_of_decodeOperation h
      have hcode : bitsMsb (valMsb f) 8 = f := by rw [← show f.length = 8 from hlen, bitsMsb_valMsb]
      exact ⟨by rw [hbits, hcode], hs⟩
    case isFalse hslot =>
      obtain ⟨rfl, rfl⟩ := Prod.mk.inj (Except.ok.inj h)
      obtain ⟨hbits, hs⟩ := encode_decodeElement hslot hlen
      exact ⟨by rw [hbits], hs⟩

/-- Settles O12, each word by its evaluation. -/
theorem writtenOutWordsDecode : Obligations.WrittenOutWordsDecode := by
  refine ⟨rfl, rfl, rfl, rfl, rfl, rfl⟩

open Laws.OpCodeFirst in
/-- An operation's encoding begins with its code (R90). -/
theorem opCode_first : ∀ i : Instr, Laws.OpCodeFirst.Statement i
  | .bwClear => bwClear
  | .bwWrite v n => bwWrite v n
  | .bwFlush => bwFlush
  | .bwGetBytes => bwGetBytes
  | .brLoad b => brLoad b
  | .brRead n => brRead n
  | .brPos => brPos
  | .brConsumed => brConsumed
  | .rleeEncode m => rleeEncode m
  | .rledDecode b n => rledDecode b n
  | .poseEncode m w => poseEncode m w
  | .posdDecode b n w => posdDecode b n w
  | .feReset => feReset
  | .feEncodeFrame a p => feEncodeFrame a p
  | .fdStart b => fdStart b
  | .fdStep => fdStep
  | .fdRun => fdRun
  | .fdStatus => fdStatus
  | .reset => reset
  | .ac a b => ac a b
  | .hdrRle r => hdrRle r
  | .hdrPos r => hdrPos r
  | .run v l => run v l
  | .posCount w c => posCount w c
  | .posIndex w x => posIndex w x
  | .posPad b => posPad b

/-- Settles O13: the decoder looks at the code first, and answers by name to any that the table lacks. -/
theorem operationCodes : Obligations.OperationCodes := by
  refine ⟨opCode_first, fun c rest hc => ?_⟩
  rw [decode_command_byteBits]
  unfold decodeOperation
  split
  case h_20 => rfl
  all_goals
    rename_i hcode
    exact absurd (by simp [← BitVec.toNat_inj, hcode]) hc

end Sys2Proof.Machine

/-! Proofs: what an operation does to its unit (10_state.md section 9, 20_memory.md R62). Each unit has a relation with
one rule per case of its operations; `exec_effect` says that an instruction does one of these things to one unit and
nothing else, and every frame statement below is read off it. -/

namespace Sys2Proof.Machine

open Sys2Proof

theorem widthOk_iff {n : Nat} : widthOk n ↔ 1 ≤ n ∧ n ≤ 32 := Iff.rfl

/-! ### bitstream_writer -/

theorem exec_bwClear (s : State) : exec .bwClear s = .next ((s.withBw emptyWriter).withResult .ok) := rfl

/-- BW.WRITE on a faulted writer (R102). -/
theorem exec_bwWrite_of_err {s : State} (herr : s.bw.err = true) (v n : Nat) :
    exec (.bwWrite v n) s = .next (s.withResult (.fault .writerFaulted)) := by
  simp [exec, execBwWrite, writeCheck, herr]

/-- BW.WRITE with an illegal width (R102). -/
theorem exec_bwWrite_of_not_widthOk {s : State} (herr : s.bw.err = false) {n : Nat} (hn : ¬ widthOk n) (v : Nat) :
    exec (.bwWrite v n) s = .next ((s.withBw (setWriterErr s.bw)).withResult (.fault .numBitsRange)) := by
  simp only [exec, execBwWrite, writeCheck, herr, if_pos hn]
  rfl

/-- BW.WRITE with a value that does not fit its width (R102). -/
theorem exec_bwWrite_of_not_valueOk {s : State} (herr : s.bw.err = false) {v n : Nat} (hn : widthOk n)
    (hv : ¬ valueOk v n) :
    exec (.bwWrite v n) s = .next ((s.withBw (setWriterErr s.bw)).withResult (.fault .valueRange)) := by
  simp only [exec, execBwWrite, writeCheck, herr, not_not.mpr hn, if_pos hv]
  rfl

/-- BW.FLUSH refuses a faulted writer (R105). -/
theorem exec_bwFlush_of_err {s : State} (herr : s.bw.err = true) :
    exec .bwFlush s = .next (s.withResult (.fault .writerFaulted)) := if_pos herr

/-- BW.FLUSH of an unfaulted writer (R105). -/
theorem exec_bwFlush_of_not_err {s : State} (herr : s.bw.err = false) :
    exec .bwFlush s = .next ((s.withBw (flushWriter s.bw)).withResult .ok) := by
  simp [exec, execBwFlush, herr]

/-- The operations of BW but BW.CLEAR: those a faulted writer refuses (R227). -/
def IsCheckedWriterOp (i : Instr) : Prop := i = .bwFlush ∨ i = .bwGetBytes ∨ ∃ v n, i = .bwWrite v n

/-- An operation of BW, the writer before and after it, and its result (R101 to R106). -/
inductive WriterStep : Instr → Writer → Writer → Result → Prop
  | clear (w : Writer) : WriterStep .bwClear w emptyWriter .ok
  | faulted {i : Instr} {w : Writer} (hi : IsCheckedWriterOp i) (herr : w.err = true) :
      WriterStep i w w (.fault .writerFaulted)
  | refusedWidth {v n : Nat} {w : Writer} (herr : w.err = false) (hn : ¬ widthOk n) :
      WriterStep (.bwWrite v n) w (setWriterErr w) (.fault .numBitsRange)
  | refusedValue {v n : Nat} {w : Writer} (herr : w.err = false) (hn : widthOk n) (hv : ¬ valueOk v n) :
      WriterStep (.bwWrite v n) w (setWriterErr w) (.fault .valueRange)
  | write {v n : Nat} {w : Writer} (herr : w.err = false) (hn : widthOk n) (hv : valueOk v n) :
      WriterStep (.bwWrite v n) w (writeBits w v n) .ok
  | flush {w : Writer} (herr : w.err = false) : WriterStep .bwFlush w (flushWriter w) .ok
  | getBytes {w : Writer} (herr : w.err = false) : WriterStep .bwGetBytes w w (.bytes w.out)

theorem exec_of_writerStep {i : Instr} {s : State} {w : Writer} {r : Result} (h : WriterStep i s.bw w r) :
    exec i s = .next ((s.withBw w).withResult r) := by
  generalize hbw : s.bw = w₀ at h
  cases h with
  | clear => rfl
  | faulted hi herr =>
    subst hbw
    obtain rfl | rfl | ⟨v, n, rfl⟩ := hi
    · exact exec_bwFlush_of_err herr
    · exact exec_bwGetBytes_of_err herr
    · exact exec_bwWrite_of_err herr v n
  | refusedWidth herr hn => subst hbw; exact exec_bwWrite_of_not_widthOk herr hn _
  | refusedValue herr hn hv => subst hbw; exact exec_bwWrite_of_not_valueOk herr hn hv
  | write herr hn hv => subst hbw; exact exec_bwWrite_of_accepted herr hn hv
  | flush herr => subst hbw; exact exec_bwFlush_of_not_err herr
  | getBytes herr => subst hbw; exact exec_bwGetBytes_of_not_err herr

/-- BW answers every one of its operations in every state. -/
theorem exists_writerStep {i : Instr} (hi : i = .bwClear ∨ IsCheckedWriterOp i) (w : Writer) :
    ∃ w' r, WriterStep i w w' r := by
  obtain rfl | hi := hi
  · exact ⟨_, _, .clear w⟩
  cases herr : w.err with
  | true => exact ⟨_, _, .faulted hi herr⟩
  | false =>
    obtain rfl | rfl | ⟨v, n, rfl⟩ := hi
    · exact ⟨_, _, .flush herr⟩
    · exact ⟨_, _, .getBytes herr⟩
    · by_cases hn : widthOk n
      · by_cases hv : valueOk v n
        · exact ⟨_, _, .write herr hn hv⟩
        · exact ⟨_, _, .refusedValue herr hn hv⟩
      · exact ⟨_, _, .refusedWidth herr hn⟩

/-- BW.GET_BYTES is a read (R106). -/
theorem WriterStep.eq_of_read {i : Instr} {w w' : Writer} {r : Result} (h : WriterStep i w w' r)
    (hclear : i ≠ .bwClear) (hflush : i ≠ .bwFlush) (hwrite : ∀ v n, i ≠ .bwWrite v n) : w' = w := by
  cases h with
  | clear => exact absurd rfl hclear
  | faulted | getBytes => rfl
  | refusedWidth | refusedValue | write => exact absurd rfl (hwrite _ _)
  | flush => exact absurd rfl hflush

/-- Only BW.CLEAR changes a faulted writer (R227). -/
theorem WriterStep.eq_of_err {i : Instr} {w w' : Writer} {r : Result} (h : WriterStep i w w' r)
    (hclear : i ≠ .bwClear) (herr : w.err = true) : w' = w := by
  cases h with
  | clear => exact absurd rfl hclear
  | faulted => rfl
  | refusedWidth h | refusedValue h | write h | flush h | getBytes h => nomatch herr.symm.trans h

/-- Every operation of BW keeps its invariant (R24). -/
theorem WriterStep.inv {i : Instr} {w w' : Writer} {r : Result} (h : WriterStep i w w' r) (hw : WriterInv w) :
    WriterInv w' := by
  cases h with
  | clear => exact emptyWriter_inv
  | faulted | refusedWidth | refusedValue | getBytes => exact hw
  | write => exact (writeBits_bits _ _ hw).1
  | flush => exact (flushWriter_bits hw).1

/-! ### bitstream_reader -/

/-- BR.READ refuses an illegal width (R122). -/
theorem exec_brRead_of_not_widthOk {n : Nat} (hn : ¬ widthOk n) (s : State) :
    exec (.brRead n) s = .next (s.withResult (.fault .numBitsRange)) := if_neg hn

/-- BR.READ where fewer bits remain (R123). -/
theorem exec_brRead_of_exhausted {s : State} {n : Nat} (hn : widthOk n) (hrem : remaining s.br < n) :
    exec (.brRead n) s = .next (s.withResult .exhausted) := by
  simp [exec, execBrRead, hn, readField, hrem]

/-- BR.READ where the bits are there (R123). -/
theorem exec_brRead_of_present {s : State} {n : Nat} (hn : widthOk n) (hrem : n ≤ remaining s.br) :
    exec (.brRead n) s =
      .next ((s.withBr (readBits n s.br 0).2).withResult (.value (readBits n s.br 0).1)) := by
  simp [exec, execBrRead, hn, readField, hrem.not_gt]

/-- An operation of BR, the reader before and after it, and its result (R121 to R125). -/
inductive ReaderStep : Instr → Reader → Reader → Result → Prop
  | load (b : Memory) (rd : Reader) : ReaderStep (.brLoad b) rd (loadReader b) .ok
  | refused {n : Nat} {rd : Reader} (hn : ¬ widthOk n) : ReaderStep (.brRead n) rd rd (.fault .numBitsRange)
  | exhausted {n : Nat} {rd : Reader} (hn : widthOk n) (hrem : remaining rd < n) :
      ReaderStep (.brRead n) rd rd .exhausted
  | read {n : Nat} {rd : Reader} (hn : widthOk n) (hrem : n ≤ remaining rd) :
      ReaderStep (.brRead n) rd (readBits n rd 0).2 (.value (readBits n rd 0).1)
  | pos (rd : Reader) : ReaderStep .brPos rd rd (.pos rd.byteIndex rd.bitIndex)
  | consumed (rd : Reader) : ReaderStep .brConsumed rd rd (.count (consumed rd))

theorem exec_of_readerStep {i : Instr} {s : State} {rd : Reader} {r : Result} (h : ReaderStep i s.br rd r) :
    exec i s = .next ((s.withBr rd).withResult r) := by
  generalize hbr : s.br = rd₀ at h
  cases h with
  | load => rfl
  | refused hn => subst hbr; exact exec_brRead_of_not_widthOk hn s
  | exhausted hn hrem => subst hbr; exact exec_brRead_of_exhausted hn hrem
  | read hn hrem => subst hbr; exact exec_brRead_of_present hn hrem
  | pos | consumed => subst hbr; rfl

/-- The operations of BR. -/
def IsReaderOp (i : Instr) : Prop := i = .brPos ∨ i = .brConsumed ∨ (∃ b, i = .brLoad b) ∨ ∃ n, i = .brRead n

/-- BR answers every one of its operations in every state. -/
theorem exists_readerStep {i : Instr} (hi : IsReaderOp i) (rd : Reader) : ∃ rd' r, ReaderStep i rd rd' r := by
  obtain rfl | rfl | ⟨b, rfl⟩ | ⟨n, rfl⟩ := hi
  · exact ⟨_, _, .pos rd⟩
  · exact ⟨_, _, .consumed rd⟩
  · exact ⟨_, _, .load b rd⟩
  · by_cases hn : widthOk n
    · obtain hrem | hrem := lt_or_ge (remaining rd) n
      · exact ⟨_, _, .exhausted hn hrem⟩
      · exact ⟨_, _, .read hn hrem⟩
    · exact ⟨_, _, .refused hn⟩

/-- BR.POS and BR.CONSUMED are reads (R124, R125). -/
theorem ReaderStep.eq_of_status {i : Instr} {rd rd' : Reader} {r : Result} (h : ReaderStep i rd rd' r)
    (hload : ∀ b, i ≠ .brLoad b) (hread : ∀ n, i ≠ .brRead n) : rd' = rd := by
  cases h with
  | load => exact absurd rfl (hload _)
  | refused | exhausted | read => exact absurd rfl (hread _)
  | pos | consumed => rfl

/-- The bits an instruction with this result has consumed: the width of a BR.READ that returned a value (R126). -/
def widthRead (i : Instr) (r : Option Result) : Nat :=
  match i, r with
  | .brRead n, some (.value _) => n
  | _, _ => 0

theorem widthRead_of_ne {i : Instr} (hi : ∀ n, i ≠ .brRead n) (r : Option Result) : widthRead i r = 0 := by
  unfold widthRead
  split
  · exact absurd rfl (hi _)
  · rfl

/-- The cursor moves by the width of a read that returns a value, and the buffer stays until the next BR.LOAD (R26,
R126). -/
theorem ReaderStep.moves {i : Instr} {rd rd' : Reader} {r : Result} (h : ReaderStep i rd rd' r)
    (hload : ∀ b, i ≠ .brLoad b) :
    rd'.buf = rd.buf ∧ readerPos rd' = readerPos rd + widthRead i (some r) := by
  cases h with
  | load => exact absurd rfl (hload _)
  | refused | exhausted | pos | consumed => exact ⟨rfl, rfl⟩
  | read => exact ⟨readBits_buf _ _ _, readBits_pos _ _ _⟩

/-- Every operation of BR keeps its invariant (R26). -/
theorem ReaderStep.inv {i : Instr} {rd rd' : Reader} {r : Result} (h : ReaderStep i rd rd' r) (hrd : ReaderInv rd) :
    ReaderInv rd' := by
  cases h with
  | load b => exact loadReader_inv b
  | refused | exhausted | pos | consumed => exact hrd
  | read hn hrem => exact (readBits_bits 0 hrd hrem).1

/-! ### frame_encoder_adaptive_selector -/

/-- An operation of FE, the reference frame before and after it, and its result (R181, R183, R184). -/
inductive EncoderStep (c : Config) : Instr → Mask → Mask → Result → Prop
  | reset (prev : Mask) : EncoderStep c .feReset prev (blankMask c.totalPixels) .ok
  | refused {ac : Memory} {px prev : Mask} {code : FaultCode} (h : frameCheck c ac px = some code) :
      EncoderStep c (.feEncodeFrame ac px) prev prev (.fault code)
  | frame {ac : Memory} {px prev : Mask} (h : frameCheck c ac px = none) :
      EncoderStep c (.feEncodeFrame ac px) prev px (.record (encodeRecord c prev ac px))

theorem exec_of_encoderStep {i : Instr} {s : State} {m : Mask} {r : Result}
    (h : EncoderStep s.cfg i s.fe.prev m r) : exec i s = .next ((s.withPrev m).withResult r) := by
  generalize hprev : s.fe.prev = prev at h
  cases h with
  | reset => rfl
  | refused h => subst hprev; simp only [exec, execFeEncodeFrame, h]; rfl
  | frame h => subst hprev; simp only [exec, execFeEncodeFrame, h]; rfl

/-- The operations of FE. -/
def IsEncoderOp (i : Instr) : Prop := i = .feReset ∨ ∃ a p, i = .feEncodeFrame a p

/-- FE answers every one of its operations in every state. -/
theorem exists_encoderStep {i : Instr} (hi : IsEncoderOp i) (c : Config) (prev : Mask) :
    ∃ m r, EncoderStep c i prev m r := by
  obtain rfl | ⟨a, p, rfl⟩ := hi
  · exact ⟨_, _, .reset prev⟩
  · cases h : frameCheck c a p with
    | some code => exact ⟨_, _, .refused h⟩
    | none => exact ⟨_, _, .frame h⟩

/-- Every operation of FE leaves a reference frame of the size of the block (R28). -/
theorem EncoderStep.inv {c : Config} {i : Instr} {prev m : Mask} {r : Result} (h : EncoderStep c i prev m r)
    (hprev : prev.length = c.totalPixels) : m.length = c.totalPixels := by
  cases h with
  | reset => exact blankMask_length _
  | refused => exact hprev
  | frame h =>
    unfold frameCheck at h
    split_ifs at h with hac hpx
    exact not_not.mp hpx

/-! ### frame_decoder_with_delta_reconstruction -/

/-- An operation of FD, the decoder before and after it, and its result (R201, R204, R205, R210, R211). -/
inductive DecoderStep (c : Config) : Instr → Decoder → Decoder → Result → Prop
  | start (b : Memory) (d : Decoder) : DecoderStep c (.fdStart b) d (startDecoder c b) .ok
  | ended {d : Decoder} (h : decodeRecord c d = none) : DecoderStep c .fdStep d d .endOfStream
  | record {d d' : Decoder} {f : Frame} (h : decodeRecord c d = some (f, d')) : DecoderStep c .fdStep d d' (.frame f)
  | run (d : Decoder) :
      DecoderStep c .fdRun d (decodeAll c d.stream.length d).2 (.frames (decodeAll c d.stream.length d).1)
  | status (d : Decoder) : DecoderStep c .fdStatus d d (.status d.pos d.stream.length d.rsvdSeen)

/-- FD.STATUS leaves an element-wise FD.STEP under way, and the others end it (log 19). -/
theorem exec_of_decoderStep {i : Instr} {s : State} {d : Decoder} {r : Result} (h : DecoderStep s.cfg i s.fd d r) :
    ∃ x, (x = .idle ∨ x = s.scan) ∧ exec i s = .next (((s.withFd d).withScan x).withResult r) := by
  generalize hfd : s.fd = d₀ at h
  cases h with
  | start => exact ⟨_, .inl rfl, rfl⟩
  | ended h => subst hfd; exact ⟨_, .inl rfl, by simp only [exec, execFdStep, h]; rfl⟩
  | record h => subst hfd; exact ⟨_, .inl rfl, by simp only [exec, execFdStep, h]; rfl⟩
  | run => subst hfd; exact ⟨_, .inl rfl, rfl⟩
  | status => subst hfd; exact ⟨_, .inr rfl, rfl⟩

/-- The operations of FD. -/
def IsDecoderOp (i : Instr) : Prop := i = .fdStep ∨ i = .fdRun ∨ i = .fdStatus ∨ ∃ b, i = .fdStart b

/-- FD answers every one of its operations in every state. -/
theorem exists_decoderStep {i : Instr} (hi : IsDecoderOp i) (c : Config) (d : Decoder) :
    ∃ d' r, DecoderStep c i d d' r := by
  obtain rfl | rfl | rfl | ⟨b, rfl⟩ := hi
  · cases h : decodeRecord c d with
    | none => exact ⟨_, _, .ended h⟩
    | some p => exact ⟨_, _, .record h⟩
  · exact ⟨_, _, .run d⟩
  · exact ⟨_, _, .status d⟩
  · exact ⟨_, _, .start b d⟩

/-- No more frames after an `End` (R210). -/
theorem decodeAll_of_none {c : Config} {d : Decoder} (h : decodeRecord c d = none) (fuel : Nat) :
    decodeAll c fuel d = ([], d) := by
  cases fuel with
  | zero => rfl
  | succ fuel => simp only [decodeAll, h]

/-- A frame, and then the frames of the decoder after it (R210). -/
theorem decodeAll_of_some {c : Config} {d d' : Decoder} {f : Frame} (h : decodeRecord c d = some (f, d')) (fuel : Nat) :
    decodeAll c (fuel + 1) d = (f :: (decodeAll c fuel d').1, (decodeAll c fuel d').2) := by
  simp only [decodeAll, h]

/-- What every FD.STEP that delivers a record keeps, FD.RUN keeps. -/
theorem decodeAll_preserves {c : Config} {P : Decoder → Prop}
    (hP : ∀ d d' f, decodeRecord c d = some (f, d') → P d → P d') (fuel : Nat) {d : Decoder} (hd : P d) :
    P (decodeAll c fuel d).2 := by
  induction fuel generalizing d with
  | zero => exact hd
  | succ fuel ih =>
    cases h : decodeRecord c d with
    | none => rwa [decodeAll_of_none h]
    | some p =>
      rw [decodeAll_of_some h]
      exact ih (hP _ _ _ h hd)

/-- The stream stays until the next FD.START (R64). -/
theorem DecoderStep.stream_eq {c : Config} {i : Instr} {d d' : Decoder} {r : Result} (h : DecoderStep c i d d' r)
    (hstart : ∀ b, i ≠ .fdStart b) : d'.stream = d.stream := by
  cases h with
  | start => exact absurd rfl (hstart _)
  | ended | status => rfl
  | record h => exact (decodeRecord_advances h).1
  | run =>
    exact decodeAll_preserves (P := fun x => x.stream = d.stream)
      (fun _ _ _ h hd => (decodeRecord_advances h).1.trans hd) _ rfl

/-- Every operation of FD keeps its invariant (R29). -/
theorem DecoderStep.inv {c : Config} {i : Instr} {d d' : Decoder} {r : Result} (h : DecoderStep c i d d' r)
    (hd : DecoderInv c d) : DecoderInv c d' := by
  cases h with
  | start b => exact ⟨Nat.zero_le _, blankMask_length _⟩
  | ended | status => exact hd
  | record h => exact decodeRecord_inv hd h
  | run => exact decodeAll_preserves (fun _ _ _ h hd => decodeRecord_inv hd h) _ hd

/-! ### Every instruction -/

/-- The operations of RLEE, RLED, POSE and POSD (R27). -/
def IsCodecOp (i : Instr) : Prop :=
  (∃ m, i = .rleeEncode m) ∨ (∃ b n, i = .rledDecode b n) ∨ (∃ m w, i = .poseEncode m w) ∨
    ∃ b n w, i = .posdDecode b n w

/-- Everything an instruction that answers a next state can do: an operation of BW, BR, FE or FD works on its unit, an
operation of the four codecs answers a result, RESET resets, and a stream element goes on in its record or completes
it. -/
inductive Effect (i : Instr) (s : State) : State → Prop
  | writer {w : Writer} {r : Result} (h : WriterStep i s.bw w r) : Effect i s ((s.withBw w).withResult r)
  | reader {rd : Reader} {r : Result} (h : ReaderStep i s.br rd r) : Effect i s ((s.withBr rd).withResult r)
  | codec (hi : IsCodecOp i) (r : Result) : Effect i s (s.withResult r)
  | encoder {m : Mask} {r : Result} (h : EncoderStep s.cfg i s.fe.prev m r) : Effect i s ((s.withPrev m).withResult r)
  | decoder {d : Decoder} {r : Result} {x : Scan} (h : DecoderStep s.cfg i s.fd d r) (hx : x = .idle ∨ x = s.scan) :
      Effect i s (((s.withFd d).withScan x).withResult r)
  | reset (hi : i = .reset) : Effect i s (((State.ofConfig s.cfg).withPort s.port).withResult .ok)
  | walk (hi : i.slot ≠ .command) (x : Scan) : Effect i s (s.withScan x)
  | finish (hi : i.slot ≠ .command) (a b : Byte) (rsv : Bool) (m : Mask) (k : Nat) :
      Effect i s (((s.withFd (deliver s.fd m k rsv)).withScan .idle).withResult
        (.frame ⟨[a, b], xorMask s.fd.canvas m⟩))

/-- An operation is one of a unit, or RESET. -/
theorem operation_cases {i : Instr} (hi : i.slot = .command) :
    (i = .bwClear ∨ IsCheckedWriterOp i) ∨ IsReaderOp i ∨ IsCodecOp i ∨ IsEncoderOp i ∨ IsDecoderOp i ∨ i = .reset := by
  cases i
  case ac | hdrRle | hdrPos | run | posCount | posIndex | posPad => cases hi
  all_goals simp [IsCheckedWriterOp, IsReaderOp, IsCodecOp, IsEncoderOp, IsDecoderOp]

/-- An operation answers a next state in every state (R13, R221). -/
theorem exists_effect_of_command {i : Instr} (hi : i.slot = .command) (s : State) :
    ∃ t, exec i s = .next t ∧ Effect i s t := by
  obtain hi | hi | hi | hi | hi | rfl := operation_cases hi
  · obtain ⟨w, r, h⟩ := exists_writerStep hi s.bw
    exact ⟨_, exec_of_writerStep h, .writer h⟩
  · obtain ⟨rd, r, h⟩ := exists_readerStep hi s.br
    exact ⟨_, exec_of_readerStep h, .reader h⟩
  · obtain ⟨r, h⟩ := codecOperationsArePure i hi
    exact ⟨_, h s, .codec hi r⟩
  · obtain ⟨m, r, h⟩ := exists_encoderStep hi s.cfg s.fe.prev
    exact ⟨_, exec_of_encoderStep h, .encoder h⟩
  · obtain ⟨d, r, h⟩ := exists_decoderStep hi s.cfg s.fd
    obtain ⟨x, hx, hexec⟩ := exec_of_decoderStep h
    exact ⟨_, hexec, .decoder h hx⟩
  · exact ⟨_, rfl, .reset rfl⟩

/-- What a stream element can answer: it goes on in its record, completes it, or is refused (log 8, log 9). -/
inductive ElementAnswer (s : State) : Answer → Prop
  | walk (x : Scan) : ElementAnswer s (.next (s.withScan x))
  | finish (a b : Byte) (rsv : Bool) (m : Mask) (k : Nat) : ElementAnswer s (finishRecord a b rsv m k s)
  | refused : ElementAnswer s outOfPlace

theorem elementAnswer_nextRun (a b : Byte) (rsv : Bool) (written : Mask) (k : Nat) (s : State) :
    ElementAnswer s (nextRun a b rsv written k s) := by
  obtain ⟨-, -, h⟩ | ⟨-, h⟩ := nextRun_cases a b rsv written k s
  · rw [h]; exact .walk _
  · rw [h]; exact .finish _ _ _ _ _

theorem elementAnswer_exec {i : Instr} (hi : i.slot ≠ .command) (s : State) : ElementAnswer s (exec i s) := by
  cases i
  case ac =>
    simp only [exec, execAc]
    split
    · exact .walk _
    · exact .refused
  case hdrRle =>
    simp only [exec, execHdrRle]
    split
    · exact elementAnswer_nextRun _ _ _ _ _ _
    · exact .refused
  case hdrPos =>
    simp only [exec, execHdrPos]
    split
    · exact .walk _
    · exact .refused
  case run =>
    simp only [exec, execRun]
    split
    · exact elementAnswer_nextRun _ _ _ _ _ _
    · exact .refused
  case posCount =>
    simp only [exec, execPosCount]
    split
    · split
      · exact .walk _
      · exact .refused
    · exact .refused
  case posIndex =>
    simp only [exec, execPosIndex]
    split
    · split
      · exact .walk _
      · exact .refused
    · exact .refused
  case posPad =>
    simp only [exec, execPosPad]
    split
    · split
      · exact .finish _ _ _ _ _
      · exact .refused
    · split
      · exact .finish _ _ _ _ _
      · exact .refused
    · exact .refused
  all_goals exact absurd rfl hi

/-- Everything an instruction that answers a next state can do. -/
theorem exec_effect {i : Instr} {s t : State} (h : exec i s = .next t) : Effect i s t := by
  by_cases hi : i.slot = .command
  · obtain ⟨t', ht', heff⟩ := exists_effect_of_command hi s
    obtain rfl := Host.Outcome.next.inj (h.symm.trans ht')
    exact heff
  · have hans := elementAnswer_exec hi s
    rw [h] at hans
    cases hans with
    | walk x => exact .walk hi x
    | finish a b rsv m k => exact .finish hi a b rsv m k

end Sys2Proof.Machine

/-! Proofs: what every instruction leaves as it was (10_state.md section 9, 20_memory.md R62, 60_exceptions.md R234),
read off the effect of an instruction. -/

namespace Sys2Proof.Machine

open Sys2Proof

/-- Settles O5: no effect is on the configuration. -/
theorem configurationNeverChanges : Obligations.ConfigurationNeverChanges := by
  intro i s t h
  cases exec_effect h <;> rfl

/-- Settles O6: an effect is on one unit, and the reads of a unit and the refusals leave it as it was. -/
theorem unitsDoNotInteract : Obligations.UnitsDoNotInteract := by
  intro i s t h hreset
  cases exec_effect h with
  | writer hstep =>
    exact ⟨fun ⟨hclear, hflush, hwrite⟩ => hstep.eq_of_read hclear hflush hwrite, fun _ => rfl, fun _ => rfl,
      fun _ => rfl, fun _ _ => rfl, fun _ _ => rfl, rfl⟩
  | reader hstep =>
    exact ⟨fun _ => rfl, fun ⟨hload, hread⟩ => hstep.eq_of_status hload hread, fun _ => rfl, fun _ => rfl,
      fun hload a => congrArg (readByte · a) (hstep.moves hload).1, fun _ _ => rfl, rfl⟩
  | codec | walk =>
    exact ⟨fun _ => rfl, fun _ => rfl, fun _ => rfl, fun _ => rfl, fun _ _ => rfl, fun _ _ => rfl, rfl⟩
  | encoder hstep =>
    refine ⟨fun _ => rfl, fun _ => rfl, fun ⟨hfeReset, hframe⟩ => ?_, fun _ => rfl, fun _ _ => rfl, fun _ _ => rfl, rfl⟩
    cases hstep with
    | reset => exact absurd rfl hfeReset
    | refused | frame => exact absurd rfl (hframe _ _)
  | decoder hstep =>
    refine ⟨fun _ => rfl, fun _ => rfl, fun _ => rfl, fun ⟨_, hfdStep, hrun, hstart⟩ => ?_, fun _ _ => rfl,
      fun hstart a => congrArg (readByte · a) (hstep.stream_eq hstart), rfl⟩
    cases hstep with
    | start => exact absurd rfl (hstart _)
    | ended | record => exact absurd rfl hfdStep
    | run => exact absurd rfl hrun
    | status => rfl
  | reset hi => exact absurd hi hreset
  | finish hi =>
    exact ⟨fun _ => rfl, fun _ => rfl, fun _ => rfl, fun ⟨hcmd, _⟩ => absurd hcmd hi, fun _ _ => rfl, fun _ _ => rfl,
      rfl⟩

/-- Settles O8: the rule that applies to a unit is chosen by the unit and the operands, and so is what it answers. -/
theorem operationReadsOwnUnitOnly : Obligations.OperationReadsOwnUnitOnly := by
  intro s s' t hcfg
  refine ⟨fun i hi hunit h => ?_, fun i hi hunit h => ?_, fun i hi hunit h => ?_, fun i hi hunit h => ?_⟩
  · obtain ⟨w, r, hstep⟩ := exists_writerStep hi s.bw
    obtain rfl := Host.Outcome.next.inj (h.symm.trans (exec_of_writerStep hstep))
    exact ⟨_, exec_of_writerStep (hunit ▸ hstep), rfl, rfl⟩
  · obtain ⟨rd, r, hstep⟩ := exists_readerStep hi s.br
    obtain rfl := Host.Outcome.next.inj (h.symm.trans (exec_of_readerStep hstep))
    exact ⟨_, exec_of_readerStep (hunit ▸ hstep), rfl, rfl⟩
  · obtain ⟨m, r, hstep⟩ := exists_encoderStep hi s.cfg s.fe.prev
    obtain rfl := Host.Outcome.next.inj (h.symm.trans (exec_of_encoderStep hstep))
    exact ⟨_, exec_of_encoderStep (hcfg ▸ hunit ▸ hstep), rfl, rfl⟩
  · obtain ⟨d, r, hstep⟩ := exists_decoderStep hi s.cfg s.fd
    obtain ⟨x, -, hexec⟩ := exec_of_decoderStep hstep
    obtain ⟨x', -, hexec'⟩ := exec_of_decoderStep (s := s') (hcfg ▸ hunit ▸ hstep)
    obtain rfl := Host.Outcome.next.inj (h.symm.trans hexec)
    exact ⟨_, hexec', rfl, rfl⟩

/-- Settles O50: the rules with a fault for a result leave their unit as it was, but for BW.err. -/
theorem faultsArePrecise : Obligations.FaultsArePrecise := by
  intro i s t code hi h hfault
  cases exec_effect h with
  | writer hstep =>
    obtain rfl := Option.some.inj hfault
    cases hstep with
    | faulted => exact .inl rfl
    | refusedWidth => exact .inr ⟨⟨_, _, rfl⟩, .inl rfl, rfl⟩
    | refusedValue => exact .inr ⟨⟨_, _, rfl⟩, .inr rfl, rfl⟩
  | reader hstep =>
    obtain rfl := Option.some.inj hfault
    cases hstep with
    | refused => exact .inl rfl
  | codec =>
    obtain rfl := Option.some.inj hfault
    exact .inl rfl
  | encoder hstep =>
    obtain rfl := Option.some.inj hfault
    cases hstep with
    | refused => exact .inl rfl
  | decoder hstep =>
    obtain rfl := Option.some.inj hfault
    cases hstep
  | reset => cases hfault
  | walk hslot x =>
    obtain hcmd | hnone := hi
    · exact absurd hcmd hslot
    · exact nomatch hnone.symm.trans hfault
  | finish => cases hfault

/-! ### bitstream_writer (R36, R101, R102, R105, R227) -/

/-- Settles O16: of the rules that start from a faulted writer only BW.CLEAR and RESET leave it unfaulted. -/
theorem bwClearEmptiesWriter : Obligations.BwClearEmptiesWriter := by
  refine ⟨rfl, exec_bwClear, fun i s t h herr hclear => ?_⟩
  cases exec_effect h with
  | writer hstep =>
    by_cases hi : i = .bwClear
    · exact .inl hi
    · have hsame := congrArg Writer.err (hstep.eq_of_err hi herr)
      exact nomatch (hsame.trans herr).symm.trans hclear
  | reset hi => exact .inr hi
  | reader | codec | encoder | decoder | walk | finish => exact nomatch herr.symm.trans hclear

/-- Settles O17, by the checks of BW.WRITE in their order. -/
theorem bwWriteRefusals : Obligations.BwWriteRefusals := by
  refine fun s v n => ⟨fun herr => exec_bwWrite_of_err herr v n, fun herr hn => ?_, fun herr h1 h32 hv => ?_⟩
  · exact exec_bwWrite_of_not_widthOk herr (by rw [widthOk_iff]; omega) v
  · exact exec_bwWrite_of_not_valueOk herr ⟨h1, h32⟩ hv.not_gt

theorem flushWriter_of_pos {w : Writer} (h : 0 < w.nacc) :
    flushWriter w = { w with acc := 0, nacc := 0, out := w.out ++ [BitVec.ofNat 8 (w.acc * 2 ^ (8 - w.nacc))] } :=
  if_pos h

theorem flushWriter_of_zero {w : Writer} (h : w.nacc = 0) : flushWriter w = w := if_neg (by omega)

/-- A second flush finds nothing pending (R105). -/
theorem flushWriter_flushWriter (w : Writer) : flushWriter (flushWriter w) = flushWriter w :=
  flushWriter_of_zero (flushWriter_nacc w)

/-- Settles O19, by the cases of the flag and of the pending bits. -/
theorem bwFlushPadsPendingBits : Obligations.BwFlushPadsPendingBits := by
  refine ⟨rfl, fun s => ⟨exec_bwFlush_of_err, fun herr hpos => ?_, fun herr hzero => ?_, fun t h => ?_⟩⟩
  · rw [exec_bwFlush_of_not_err herr, flushWriter_of_pos hpos, herr]
  · rw [exec_bwFlush_of_not_err herr, flushWriter_of_zero hzero]
    rfl
  · cases herr : s.bw.err with
    | true =>
      obtain rfl := Host.Outcome.next.inj (h.symm.trans (exec_bwFlush_of_err herr))
      exact exec_bwFlush_of_err herr
    | false =>
      obtain rfl := Host.Outcome.next.inj (h.symm.trans (exec_bwFlush_of_not_err herr))
      rw [exec_bwFlush_of_not_err (by simpa using herr), State.withResult_bw, State.withBw_bw, flushWriter_flushWriter]
      rfl

/-- Settles O22, by the rules of BW that start from a faulted writer, and those that fault it. -/
theorem faultedWriterStaysFaulted : Obligations.FaultedWriterStaysFaulted := by
  refine ⟨fun s t v n h hfault => ?_, fun i s herr hi => exec_of_writerStep (.faulted hi herr),
    fun i s t herr h hclear hreset => ?_, fun i s t h hi => ?_⟩
  · obtain ⟨w, r, hstep⟩ := exists_writerStep (i := .bwWrite v n) (.inr (.inr (.inr ⟨v, n, rfl⟩))) s.bw
    obtain rfl := Host.Outcome.next.inj (h.symm.trans (exec_of_writerStep hstep))
    cases hstep with
    | refusedWidth | refusedValue => rfl
    | faulted | write => simp at hfault
  · cases exec_effect h with
    | writer hstep => exact hstep.eq_of_err hclear herr
    | reset hi => exact absurd hi hreset
    | reader | codec | encoder | decoder | walk | finish => rfl
  · obtain rfl | rfl := hi
    · obtain rfl := Host.Outcome.next.inj h
      rfl
    · obtain rfl := Host.Outcome.next.inj h
      rfl

/-- The output after an instruction is the output before it and at most four more bytes; a flush adds at most one, and
only a write and a flush add any (R36). -/
def Appends (i : Instr) (out out' : Memory) : Prop :=
  ∃ more, out' = out ++ more ∧ more.length ≤ 4 ∧ (i = .bwFlush → more.length ≤ 1) ∧
    (i ≠ .bwFlush → (∀ v n, i ≠ .bwWrite v n) → more = [])

theorem appends_self (i : Instr) (out : Memory) : Appends i out out :=
  ⟨[], by simp⟩

/-- A write completes at most four bytes, as at most `7 + 32` bits are pending, and a flush at most one (R103, R105). -/
theorem WriterStep.appends {i : Instr} {w w' : Writer} {r : Result} (h : WriterStep i w w' r)
    (hclear : i ≠ .bwClear) (hw : WriterInv w) : Appends i w.out w'.out := by
  have hnacc : w.nacc ≤ 7 := hw.1
  cases h with
  | clear => exact absurd rfl hclear
  | faulted | refusedWidth | refusedValue | getBytes => exact appends_self _ _
  | @write v n _ herr hn hv =>
    obtain ⟨-, hn32⟩ := widthOk_iff.mp hn
    obtain ⟨more, hout⟩ := writeBits_out w v n
    have hlen := congrArg List.length (writeBits_bits v n hw).2
    simp only [writerBits, hout, memBits_append, List.length_append, memBits_length, bitsMsb_length] at hlen
    exact ⟨more, hout, by omega, nofun, fun _ hno => absurd rfl (hno v n)⟩
  | flush =>
    obtain ⟨more, hout⟩ := flushWriter_out w
    have hlen := congrArg List.length (flushWriter_bits hw).2
    simp only [writerBits, hout, memBits_append, List.length_append, memBits_length, bitsMsb_length,
      List.length_replicate] at hlen
    exact ⟨more, hout, by omega, fun _ => by omega, fun hno => absurd rfl hno⟩

theorem exec_appends {i : Instr} {s t : State} (h : exec i s = .next t) (hclear : i ≠ .bwClear) (hreset : i ≠ .reset)
    (hinv : WriterInv s.bw) : Appends i s.bw.out t.bw.out := by
  cases exec_effect h with
  | writer hstep => exact hstep.appends hclear hinv
  | reset hi => exact absurd hi hreset
  | reader | codec | encoder | decoder | walk | finish => exact appends_self _ _

/-- Settles O9: the output only ever gets longer at its end. -/
theorem outputIsAppendOnly : Obligations.OutputIsAppendOnly := by
  intro i s t h hclear hreset hinv
  obtain ⟨more, hout, hmore, hflush, hnone⟩ := exec_appends h hclear hreset hinv
  rw [hout, List.length_append]
  refine ⟨fun a => readByte_append more, by omega, by omega, fun hi => ?_, fun hi hwrite => ?_⟩
  · have hone := hflush hi
    omega
  · rw [hnone hi hwrite, List.append_nil]

/-- Settles O21: each rule of BW keeps the invariant, and a write and a flush append their bits. -/
theorem writerHoldsAcceptedBits : Obligations.WriterHoldsAcceptedBits := by
  refine ⟨emptyWriter_inv, rfl, fun i s t hinv h => ?_, fun s t v n hinv h hok => ?_, fun s t hinv h hok => ?_⟩
  · cases exec_effect h with
    | writer hstep => exact hstep.inv hinv
    | reset => exact emptyWriter_inv
    | reader | codec | encoder | decoder | walk | finish => exact hinv
  · obtain ⟨w, r, hstep⟩ := exists_writerStep (i := .bwWrite v n) (.inr (.inr (.inr ⟨v, n, rfl⟩))) s.bw
    obtain rfl := Host.Outcome.next.inj (h.symm.trans (exec_of_writerStep hstep))
    cases hstep with
    | write => exact (writeBits_bits v n hinv).2
    | faulted | refusedWidth | refusedValue => cases hok
  · obtain ⟨w, r, hstep⟩ := exists_writerStep (i := .bwFlush) (.inr (.inl rfl)) s.bw
    obtain rfl := Host.Outcome.next.inj (h.symm.trans (exec_of_writerStep hstep))
    cases hstep with
    | flush =>
      simp only [State.withResult_bw, State.withBw_bw]
      rw [writerBits, flushWriter_nacc, bitsMsb, List.append_nil, (flushWriter_bits hinv).2]
    | faulted => cases hok

end Sys2Proof.Machine

/-! Proofs: sequences of operations of BW and BR (40_bitstream_writer.md R108, R109; 41_bitstream_reader.md R126). -/

namespace Sys2Proof.Machine

open Sys2Proof

/-! ### Lists of instructions -/

theorem execAll_cons_of_next {i : Instr} {s t : State} (h : exec i s = .next t) (is : List Instr) :
    execAll (i :: is) s = execAll is t := by
  simp [execAll, h, nextState]

/-- A list that ends in a state went through a next state of its first instruction. -/
theorem exists_next_of_execAll_cons {i : Instr} {is : List Instr} {s u : State} (h : execAll (i :: is) s = some u) :
    ∃ t, exec i s = .next t ∧ execAll is t = some u := by
  cases hexec : exec i s with
  | next t => exact ⟨t, rfl, by rwa [execAll_cons_of_next hexec] at h⟩
  | fault | refused => simp [execAll, hexec, nextState] at h

theorem execAll_append (is js : List Instr) (s : State) : execAll (is ++ js) s = (execAll is s).bind (execAll js) := by
  induction is generalizing s with
  | nil => rfl
  | cons i is ih => simp only [List.cons_append, execAll, Option.bind_assoc, ih]

theorem resultsOf_cons_of_next {i : Instr} {s t : State} (h : exec i s = .next t) (is : List Instr) :
    resultsOf (i :: is) s = t.result.toList ++ resultsOf is t := by
  simp [resultsOf, h]

theorem bitsRead_cons_of_next {i : Instr} {s t : State} (h : exec i s = .next t) (is : List Instr) :
    bitsRead (i :: is) s = widthRead i t.result + bitsRead is t := by
  simp only [bitsRead, h]
  rfl

/-! ### bitstream_reader -/

/-- The bits consumed and the bits that remain are those of the buffer (R26). -/
theorem remaining_add_readerPos {r : Reader} (h : ReaderInv r) : remaining r + readerPos r = 8 * r.buf.length := by
  obtain ⟨hbyte, hbit, hend⟩ := h
  unfold remaining readerPos
  omega

/-- A reader is its buffer and the number of bits consumed (R26). -/
theorem eq_cursor {r : Reader} (h : ReaderInv r) :
    r = { buf := r.buf, byteIndex := readerPos r / 8, bitIndex := readerPos r % 8 } := by
  obtain ⟨hbyte, hbit⟩ := readerPos_cursor h
  rw [← hbyte, ← hbit]

/-- The reader after a field (R128). -/
theorem readBits_reader {r : Reader} {n : Nat} (h : ReaderInv r) (hn : n ≤ remaining r) (v : Nat) :
    (readBits n r v).2 = { buf := r.buf, byteIndex := (readerPos r + n) / 8, bitIndex := (readerPos r + n) % 8 } := by
  have hcursor := eq_cursor (readBits_bits v h hn).1
  rwa [readBits_buf, readBits_pos] at hcursor

/-- The value of a field is the number of its bits (R128). -/
theorem readBits_value {r : Reader} {n : Nat} (h : ReaderInv r) (hn : n ≤ remaining r) :
    (readBits n r 0).1 = valMsb ((readerBits r).take n) := by
  obtain ⟨-, -, hvalue⟩ := readBits_bits 0 h hn
  rw [hvalue, Nat.zero_mul, Nat.zero_add]

/-- BR.READ of a legal width is exhausted exactly where fewer bits remain (R123). -/
theorem exec_brRead_eq_exhausted_iff {s : State} {n : Nat} (hn : widthOk n) :
    exec (.brRead n) s = .next (s.withResult .exhausted) ↔ remaining s.br < n := by
  refine ⟨fun h => not_le.mp fun hrem => ?_, exec_brRead_of_exhausted hn⟩
  have hresult := congrArg State.result (Host.Outcome.next.inj (h.symm.trans (exec_brRead_of_present hn hrem)))
  cases hresult

/-- Settles O25: the bytes begun are the cursor rounded up to whole bytes. -/
theorem brLoadAndStatusReads : Obligations.BrLoadAndStatusReads :=
  fun _ _ => ⟨rfl, rfl, rfl, rfl, rfl, _, rfl, rfl, fun hinv => ⟨consumed_eq hinv, consumed_le hinv⟩⟩

/-- Settles O26, by the two refusals and the closed form of the loop of BR.READ. -/
theorem brReadClosedForm : Obligations.BrReadClosedForm := by
  intro s n rem t v
  refine ⟨rfl, fun hn => ?_, fun h1 h32 hrem => exec_brRead_of_exhausted ⟨h1, h32⟩ hrem, fun hinv h1 h32 hrem => ?_⟩
  · exact exec_brRead_of_not_widthOk (by rw [widthOk_iff]; omega) s
  · have hlen : ((readerBits s.br).take n).length = n :=
      List.length_take_of_le (by rw [readerBits_length]; exact hrem)
    refine ⟨hlen ▸ valMsb_lt ((readerBits s.br).take n), ?_⟩
    rw [exec_brRead_of_present ⟨h1, h32⟩ hrem, readBits_reader hinv hrem, readBits_value hinv hrem]
    rfl

/-- The cursor moves by the width of a read that returns a value, whatever the instruction (R26, R126). -/
theorem exec_reader_moves {i : Instr} {s t : State} (h : exec i s = .next t) (hreset : i ≠ .reset)
    (hload : ∀ b, i ≠ .brLoad b) :
    t.br.buf = s.br.buf ∧ readerPos t.br = readerPos s.br + widthRead i t.result := by
  by_cases hread : ∃ n, i = .brRead n
  · obtain ⟨rd, r, hstep⟩ := exists_readerStep (.inr (.inr (.inr hread))) s.br
    obtain rfl := Host.Outcome.next.inj (h.symm.trans (exec_of_readerStep hstep))
    exact hstep.moves hload
  · rw [not_exists] at hread
    obtain ⟨-, hbr, -⟩ := unitsDoNotInteract i s t h hreset
    rw [hbr ⟨hload, hread⟩, widthRead_of_ne hread]
    exact ⟨rfl, rfl⟩

theorem exec_readerInv {i : Instr} {s t : State} (h : exec i s = .next t) (hinv : ReaderInv s.br) : ReaderInv t.br := by
  cases exec_effect h with
  | reader hstep => exact hstep.inv hinv
  | reset => exact loadReader_inv []
  | writer | codec | encoder | decoder | walk | finish => exact hinv

/-- Settles O27: only BR.LOAD and RESET replace the buffer, and a read moves the cursor on by its width. -/
theorem readerInvariantKept : Obligations.ReaderInvariantKept := by
  refine ⟨loadReader_inv [], fun i s t hinv h => exec_readerInv h hinv, fun i s t h hreset hload => ?_,
    fun r => remaining_add_readerPos⟩
  obtain ⟨hbuf, hpos⟩ := exec_reader_moves h hreset hload
  exact ⟨hbuf, hpos ▸ Nat.le_add_right _ _⟩

/-- Since the last BR.LOAD the cursor moves by the bits read (R126). -/
theorem execAll_reader_moves {is : List Instr} {s u : State} (hno : ∀ i ∈ is, i ≠ .reset ∧ ∀ b, i ≠ .brLoad b)
    (h : execAll is s = some u) (hinv : ReaderInv s.br) :
    u.br.buf = s.br.buf ∧ readerPos u.br = readerPos s.br + bitsRead is s ∧ ReaderInv u.br := by
  induction is generalizing s with
  | nil =>
    obtain rfl := Option.some.inj h
    exact ⟨rfl, rfl, hinv⟩
  | cons i is ih =>
    obtain ⟨⟨hreset, hload⟩, hno⟩ := List.forall_mem_cons.mp hno
    obtain ⟨t, hexec, hrest⟩ := exists_next_of_execAll_cons h
    obtain ⟨hbuf, hpos⟩ := exec_reader_moves hexec hreset hload
    obtain ⟨hbuf', hpos', hinv'⟩ := ih hno hrest (exec_readerInv hexec hinv)
    exact ⟨hbuf'.trans hbuf, by rw [hpos', hpos, bitsRead_cons_of_next hexec, Nat.add_assoc], hinv'⟩

/-- Settles O28: BR.LOAD puts the cursor at 0, and from there it is the number of bits read. -/
theorem readerNeverLosesPosition : Obligations.ReaderNeverLosesPosition := by
  intro s u b is hno h
  obtain ⟨t, hload, hrest⟩ := exists_next_of_execAll_cons h
  have hread : bitsRead (.brLoad b :: is) s = bitsRead is t := by
    rw [bitsRead_cons_of_next hload, widthRead_of_ne (i := .brLoad b) nofun, Nat.zero_add]
  obtain rfl := Host.Outcome.next.inj hload
  obtain ⟨hbuf, hpos, hinv⟩ := execAll_reader_moves hno hrest (loadReader_inv b)
  have hrem := remaining_add_readerPos hinv
  rw [hbuf] at hrem
  have hstart : readerPos u.br = bitsRead is ((s.withBr (loadReader b)).withResult .ok) := by
    rw [hpos]
    exact Nat.zero_add _
  have hlen : remaining u.br + readerPos u.br = 8 * b.length := hrem
  rw [hread]
  refine ⟨hstart, by omega, fun n h1 h32 => ?_⟩
  rw [exec_brRead_eq_exhausted_iff ⟨h1, h32⟩]
  omega

/-! ### A list of fields through BW and BR -/

/-- The field, a value and its width, is accepted by BW (R102). -/
def FieldOk (f : Nat × Nat) : Prop := 1 ≤ f.2 ∧ f.2 ≤ 32 ∧ f.1 < 2 ^ f.2

/-- The bits of a list of fields, one after the other. -/
def fieldsBits (fs : List (Nat × Nat)) : Bits := fs.flatMap fun f => bitsMsb f.1 f.2

theorem fieldsBits_cons (f : Nat × Nat) (fs : List (Nat × Nat)) :
    fieldsBits (f :: fs) = bitsMsb f.1 f.2 ++ fieldsBits fs := rfl

theorem fieldsBits_length (fs : List (Nat × Nat)) : (fieldsBits fs).length = (fs.map Prod.snd).sum := by
  simp [fieldsBits, List.length_flatMap]

/-- BW accepts a list of accepted fields and holds their bits after those it held (R103). -/
theorem execAll_bwWrites {fs : List (Nat × Nat)} (hfs : ∀ f ∈ fs, FieldOk f) {s : State} (hinv : WriterInv s.bw)
    (herr : s.bw.err = false) :
    ∃ t, execAll (fs.map fun f => .bwWrite f.1 f.2) s = some t ∧ WriterInv t.bw ∧ t.bw.err = false ∧
      writerBits t.bw = writerBits s.bw ++ fieldsBits fs := by
  induction fs generalizing s with
  | nil => exact ⟨s, rfl, hinv, herr, (List.append_nil _).symm⟩
  | cons f fs ih =>
    obtain ⟨⟨h1, h32, hv⟩, hfs⟩ := List.forall_mem_cons.mp hfs
    obtain ⟨hinv', hbits'⟩ := writeBits_bits f.1 f.2 hinv
    obtain ⟨t, hexec, hinv'', herr', hbits⟩ :=
      ih hfs (s := (s.withBw (writeBits s.bw f.1 f.2)).withResult .ok) hinv' (by simpa using herr)
    refine ⟨t, ?_, hinv'', herr', ?_⟩
    · rw [List.map_cons, execAll_cons_of_next (exec_bwWrite_of_accepted herr ⟨h1, h32⟩ hv), hexec]
    · rw [hbits, fieldsBits_cons, ← List.append_assoc, ← hbits']
      rfl

/-- A new writer after a list of accepted fields and one flush: the bits of the fields in order, and zero bits up to a
whole byte (R108). -/
theorem execAll_bwWrites_bwFlush {fs : List (Nat × Nat)} (hfs : ∀ f ∈ fs, FieldOk f) {s : State}
    (hbw : s.bw = emptyWriter) :
    ∃ t, execAll (fs.map (fun f => .bwWrite f.1 f.2) ++ [.bwFlush]) s = some t ∧ t.bw.err = false ∧
      t.bw.out.length = ((fs.map Prod.snd).sum + 7) / 8 ∧
      memBits t.bw.out = fieldsBits fs ++ List.replicate (8 * t.bw.out.length - (fs.map Prod.snd).sum) false := by
  obtain ⟨t, hexec, hinv, herr, hbits⟩ :=
    execAll_bwWrites hfs (s := s) (hbw ▸ emptyWriter_inv) (by rw [hbw]; rfl)
  obtain ⟨hout, hlen⟩ := flushWriter_closed hinv
  rw [hbits, hbw, emptyWriter_bits, List.nil_append, fieldsBits_length] at hout hlen
  refine ⟨(t.withBw (flushWriter t.bw)).withResult .ok, ?_, by simpa using herr, hlen, hout⟩
  rw [execAll_append, hexec, Option.bind_some, execAll_cons_of_next (exec_bwFlush_of_not_err herr), execAll]

/-- Settles O23, by the bits the writer holds and the bytes of a flush. -/
theorem writerLengthLaw : Obligations.WriterLengthLaw := by
  intro s fs hbw hfs
  obtain ⟨t, hexec, -, hlen, hbits⟩ := execAll_bwWrites_bwFlush hfs hbw
  exact ⟨t, hexec, hlen, hbits⟩

/-- BR gives a list of fields back from their bits, and stands behind them (R109). -/
theorem execAll_brReads {fs : List (Nat × Nat)} (hfs : ∀ f ∈ fs, FieldOk f) {s : State} {rest : Bits}
    (hinv : ReaderInv s.br) (hbits : readerBits s.br = fieldsBits fs ++ rest) :
    ∃ v, execAll (fs.map fun f => .brRead f.2) s = some v ∧
      resultsOf (fs.map fun f => .brRead f.2) s = fs.map (fun f => .value f.1) ∧
      ReaderInv v.br ∧ v.br.buf = s.br.buf ∧ readerBits v.br = rest := by
  induction fs generalizing s with
  | nil => exact ⟨s, rfl, rfl, hinv, rfl, hbits⟩
  | cons f fs ih =>
    obtain ⟨⟨h1, h32, hv⟩, hfs⟩ := List.forall_mem_cons.mp hfs
    rw [fieldsBits_cons, List.append_assoc] at hbits
    have hrem : f.2 ≤ remaining s.br := by simp [← readerBits_length, hbits]
    obtain ⟨hinv', hbits', -⟩ := readBits_bits 0 hinv hrem
    have hvalue : (readBits f.2 s.br 0).1 = f.1 := by
      rw [readBits_value hinv hrem, hbits, List.take_left' (bitsMsb_length _ _), valMsb_bitsMsb hv]
    have hread := exec_brRead_of_present ⟨h1, h32⟩ hrem
    rw [hvalue] at hread
    obtain ⟨v, hexec, hresults, hinv'', hbuf, hrest⟩ :=
      ih hfs (s := (s.withBr (readBits f.2 s.br 0).2).withResult (.value f.1)) hinv'
        (hbits'.trans (by rw [hbits, List.drop_left' (bitsMsb_length _ _)]))
    refine ⟨v, ?_, ?_, hinv'', hbuf.trans (readBits_buf _ _ _), hrest⟩
    · rw [List.map_cons, execAll_cons_of_next hread, hexec]
    · rw [List.map_cons, resultsOf_cons_of_next hread, hresults]
      rfl

/-- Settles O24: the flushed bytes are the bits of the fields and less than a byte of padding, and BR reads fields off
the front of its bits. -/
theorem writerReaderRoundTrip : Obligations.WriterReaderRoundTrip := by
  intro s fs hbw hfs
  obtain ⟨t, hexec, herr, hlen, hbits⟩ := execAll_bwWrites_bwFlush hfs hbw
  obtain ⟨v, hreads, hresults, hinv, hbuf, hrest⟩ :=
    execAll_brReads hfs (s := ((t.withResult (.bytes t.bw.out)).withBr (loadReader t.bw.out)).withResult .ok)
      (loadReader_inv t.bw.out) hbits
  have hconsumed : consumed v.br = t.bw.out.length := by
    have hpos := remaining_add_readerPos hinv
    rw [← readerBits_length, hrest, List.length_replicate, hbuf] at hpos
    have hpos' : 8 * t.bw.out.length - (fs.map Prod.snd).sum + readerPos v.br = 8 * t.bw.out.length := hpos
    rw [consumed_eq hinv]
    omega
  refine ⟨t.withResult (.bytes t.bw.out), t.bw.out, _, v, ?_, rfl, rfl, hresults, hreads, ?_⟩
  · rw [List.append_cons, execAll_append, hexec, Option.bind_some,
      execAll_cons_of_next (exec_bwGetBytes_of_not_err herr), execAll]
  · rw [State.withResult_bw, ← hconsumed]
    rfl

end Sys2Proof.Machine

/-! Proofs: the run-length decoder (42_rle_codec.md R146 to R151). The positions written are the runs read, cut at the
end of the mask. -/

namespace Sys2Proof.Machine

open Sys2Proof

theorem length_expandRuns_cons (b : Byte) (e : Memory) :
    (expandRuns (b :: e)).length = (lowSeven b).toNat + (expandRuns e).length := by
  simp

/-- A run appends its elements and is cut at the end of the mask (R148). -/
theorem fillRun_eq_take {total : Nat} {written : Mask} (h : written.length ≤ total) (v : Bool) (l : Nat) :
    fillRun total written v l = (written ++ List.replicate l v).take total := by
  rw [fillRun, List.take_append, List.take_of_length_le h, List.take_replicate, Nat.min_comm]

theorem take_append_take {α : Type} (n : Nat) (xs ys : List α) : (xs.take n ++ ys).take n = (xs ++ ys).take n := by
  rw [List.take_append, List.take_append, List.take_take, Nat.min_self, List.length_take]
  obtain h | h := le_total n xs.length
  · rw [Nat.min_eq_left h, Nat.sub_self, Nat.sub_eq_zero_of_le h]
  · rw [Nat.min_eq_right h]

theorem rledLoop_cons_of_lt {total : Nat} {written : Mask} (h : written.length < total) (b : Byte) (bytes : Memory)
    (k : Nat) : rledLoop total (b :: bytes) written k =
      rledLoop total bytes (fillRun total written (topBit b) (lowSeven b).toNat) (k + 1) := if_pos h

/-- Nothing is read once the mask is full (R146). -/
theorem rledLoop_of_full {total : Nat} {written : Mask} (h : total ≤ written.length) (bytes : Memory) (k : Nat) :
    rledLoop total bytes written k = (written, k) := by
  cases bytes with
  | nil => rfl
  | cons b bytes => exact if_neg h.not_gt

/-- The loop of RLED.DECODE reads the first bytes whose runs reach the end of the mask, or all of them, and writes
those runs (R146 to R148). -/
theorem rledLoop_closed {total : Nat} (bytes : Memory) {written : Mask} (k : Nat) (h : written.length ≤ total) :
    ∃ j ≤ bytes.length,
      rledLoop total bytes written k = ((written ++ expandRuns (bytes.take j)).take total, k + j) ∧
      (j = bytes.length ∨ total ≤ written.length + (expandRuns (bytes.take j)).length) ∧
      ∀ i < j, written.length + (expandRuns (bytes.take i)).length < total := by
  induction bytes generalizing written k with
  | nil => exact ⟨0, le_rfl, by simp [rledLoop, List.take_of_length_le h], .inl rfl, by simp⟩
  | cons b bytes ih =>
    obtain hlt | hfull := lt_or_ge written.length total
    · have hw := fillRun_length total written (topBit b) (lowSeven b).toNat
      obtain ⟨j, hj, hloop, hend, hbefore⟩ := ih (k + 1) (fillRun_le (topBit b) (lowSeven b).toNat h)
      refine ⟨j + 1, Nat.succ_le_succ hj, ?_, ?_, fun i hi => ?_⟩
      · rw [rledLoop_cons_of_lt hlt, hloop, fillRun_eq_take h, take_append_take, List.append_assoc, List.take_succ_cons,
          expandRuns_cons, Nat.add_assoc, Nat.add_comm 1 j]
      · rw [List.take_succ_cons, length_expandRuns_cons, List.length_cons]
        omega
      · cases i with
        | zero => simpa using hlt
        | succ i =>
          have hi := hbefore i (by omega)
          rw [List.take_succ_cons, length_expandRuns_cons]
          omega
    · refine ⟨0, Nat.zero_le _, ?_, .inr (by simpa using hfull), by simp⟩
      simp [rledLoop_of_full hfull, List.take_of_length_le h]

theorem padMask_take (total : Nat) (m : Mask) :
    padMask total (m.take total) = (m ++ List.replicate total false).take total := by
  rw [padMask, blankMask, List.take_append, List.take_replicate, List.length_take]
  congr 2
  omega

/-- Settles O30, by the closed form of the loop from the start of the mask. -/
theorem rledDecodeClosedForm : Obligations.RledDecodeClosedForm := by
  intro b total
  obtain ⟨j, hj, hloop, hend, hbefore⟩ := rledLoop_closed (written := []) b 0 (Nat.zero_le total)
  have hscan : rledScan b total = ((expandRuns (b.take j) ++ List.replicate total false).take total, j) := by
    rw [rledScan, hloop, List.nil_append, padMask_take, Nat.zero_add]
  simp only [List.length_nil, Nat.zero_add, length_expandRuns] at hend hbefore
  refine ⟨_, j, rfl, fun s => ?_, hj, hend, hbefore, rfl⟩
  rw [exec_rledDecode, hscan]
  rfl

/-- Runs that fill the mask exactly, none of them empty, are all read and nothing behind them is. -/
theorem rledLoop_append {total : Nat} {e : Memory} (tail : Memory) {written : Mask} (k : Nat)
    (hpos : ∀ b ∈ e, 1 ≤ (lowSeven b).toNat) (hfill : written.length + (expandRuns e).length = total) :
    rledLoop total (e ++ tail) written k = (written ++ expandRuns e, k + e.length) := by
  induction e generalizing written k with
  | nil => simpa using rledLoop_of_full hfill.ge tail k
  | cons b e ih =>
    obtain ⟨hb, hpos⟩ := List.forall_mem_cons.mp hpos
    rw [length_expandRuns_cons] at hfill
    have hrun : fillRun total written (topBit b) (lowSeven b).toNat =
        written ++ List.replicate (lowSeven b).toNat (topBit b) := by
      rw [fillRun, Nat.min_eq_left (by omega)]
    rw [List.cons_append, rledLoop_cons_of_lt (by omega), hrun, ih (k + 1) hpos (by simp; omega), expandRuns_cons,
      List.append_assoc, List.length_cons, Nat.add_assoc, Nat.add_comm 1]

/-- RLED.DECODE gives back the mask RLEE.ENCODE encoded, whatever follows (R151). -/
theorem rledScan_rleeBytes_append (m : Mask) (tail : Memory) :
    rledScan (rleeBytes m ++ tail) m.length = (m, (rleeBytes m).length) := by
  have hloop := rledLoop_append (written := []) tail 0 (one_le_lowSeven_of_mem_rleeBytes m)
    (by rw [expandRuns_rleeBytes, List.length_nil, Nat.zero_add])
  rw [expandRuns_rleeBytes, List.nil_append, Nat.zero_add] at hloop
  rw [rledScan, hloop, padMask, Nat.sub_self, blankMask, List.replicate_zero, List.append_nil]

/-- Settles O31: no run of RLEE is empty, and together they fill the mask. -/
theorem rleRoundTrip : Obligations.RleRoundTrip := by
  intro m e tail s t h hresult u
  obtain rfl := Host.Outcome.next.inj h
  obtain rfl := Result.bytes.inj (Option.some.inj hresult)
  rw [exec_rledDecode, rledScan_rleeBytes_append]

end Sys2Proof.Machine

/-! Proofs: the positional decoder (43_positional_codec.md R166 to R171). The fields of a payload are the groups of `w`
bits of its bit string, and POSD reads as many of them as are wanted and present. -/

namespace Sys2Proof.Machine

open Sys2Proof

/-- The number of the `j`-th group of `w` bits. -/
def fieldAt (w : Nat) (s : Bits) (j : Nat) : Nat := valMsb ((s.drop (w * j)).take w)

theorem fieldAt_drop (w : Nat) (s : Bits) (j : Nat) : fieldAt w (s.drop w) j = fieldAt w s (j + 1) := by
  rw [fieldAt, fieldAt, List.drop_drop, Nat.mul_succ, Nat.add_comm]

theorem fieldAt_zero (w : Nat) (s : Bits) : fieldAt w s 0 = valMsb (s.take w) := rfl

/-- The groups of a string of fields are the values of the fields. -/
theorem fieldAt_flatMap {w : Nat} {vs : List Nat} (hvs : ∀ v ∈ vs, v < 2 ^ w) (rest : Bits) {j : Nat}
    (hj : j < vs.length) : fieldAt w (vs.flatMap (fun v => bitsMsb v w) ++ rest) j = vs[j] := by
  induction vs generalizing j with
  | nil => cases hj
  | cons v vs ih =>
    obtain ⟨hv, hvs⟩ := List.forall_mem_cons.mp hvs
    rw [List.flatMap_cons, List.append_assoc]
    cases j with
    | zero => rw [fieldAt_zero, List.take_left' (bitsMsb_length v w), valMsb_bitsMsb hv, List.getElem_cons_zero]
    | succ j =>
      rw [← fieldAt_drop, List.drop_left' (bitsMsb_length v w), ih hvs (Nat.lt_of_succ_lt_succ hj),
        List.getElem_cons_succ]

/-- The index loop of POSD.DECODE reads the fields wanted as long as they are present, and sets their positions
(R167). -/
theorem posdLoop_closed {total w : Nat} (hw : 0 < w) (c : Nat) {r : Reader} {m : Mask} (hinv : ReaderInv r)
    (hm : m.length = total) :
    readerPos (posdLoop total w c r m).2 = readerPos r + min c (remaining r / w) * w ∧
      ∀ x, (posdLoop total w c r m).1[x]? = some true ↔
        m[x]? = some true ∨ x < total ∧ ∃ j < min c (remaining r / w), fieldAt w (readerBits r) j = x := by
  induction c generalizing r m with
  | zero => simp [posdLoop]
  | succ c ih =>
    rw [posdLoop]
    obtain ⟨hlt, hnone⟩ | ⟨hle, r', hsome, hinv', -, hpos, hbits⟩ := readField_cases (n := w) hinv
    · simp [hnone, Nat.div_eq_of_lt hlt]
    · have hrem : remaining r' = remaining r - w := by
        rw [← readerBits_length, hbits, List.length_drop, readerBits_length]
      have hgot : min (c + 1) (remaining r / w) = min c (remaining r' / w) + 1 := by
        rw [hrem, Nat.div_eq_sub_div hw hle, Nat.succ_min_succ]
      have hm' : (setIndex total m (fieldAt w (readerBits r) 0)).length = total := by rwa [setIndex_length]
      obtain ⟨hpos', hmask⟩ := ih hinv' hm'
      simp only [hsome]
      refine ⟨by rw [← fieldAt_zero, hpos', hpos, hgot]; ring, fun x => ?_⟩
      rw [← fieldAt_zero, hmask, setIndex_get _ _ _ _ hm, hgot, Nat.exists_lt_succ_left, hbits]
      have hfirst : x = fieldAt w (readerBits r) 0 ∧ fieldAt w (readerBits r) 0 < total ↔
          x < total ∧ fieldAt w (readerBits r) 0 = x :=
        ⟨fun ⟨hx, hlt⟩ => ⟨hx ▸ hlt, hx.symm⟩, fun ⟨hlt, hx⟩ => ⟨hx.symm, hx ▸ hlt⟩⟩
      simp only [fieldAt_drop, hfirst, or_assoc, and_or_left]

/-- The fields of a payload that POSD reads as indices: as many as wanted and present (R166, R167). -/
def fieldsRead (b : Memory) (w : Nat) : Nat := min (fieldAt w (memBits b) 0) (8 * b.length / w - 1)

theorem blankMask_get_ne_true (n x : Nat) : (blankMask n)[x]? ≠ some true := by
  simp [blankMask, List.getElem?_replicate]

/-- POSD.DECODE where not even the count is there (R166). -/
theorem posdScan_of_no_field {b : Memory} {w : Nat} (h : 8 * b.length < w) (total : Nat) :
    posdScan b total w = (blankMask total, 0) := by
  have hrem : remaining (loadReader b) < w := h
  simp only [posdScan, readField, if_pos hrem]
  rfl

/-- POSD.DECODE where the count is there: the positions set and the bytes consumed are those of the fields read
(R166 to R168). -/
theorem posdScan_of_field {b : Memory} {w : Nat} (hw : 0 < w) (h : w ≤ 8 * b.length) (total : Nat) :
    (posdScan b total w).2 = ((fieldsRead b w + 1) * w + 7) / 8 ∧
      ∀ x, (posdScan b total w).1[x]? = some true ↔
        x < total ∧ ∃ j < fieldsRead b w, fieldAt w (memBits b) (j + 1) = x := by
  obtain ⟨hlt, -⟩ | ⟨-, r, hsome, hinv, -, hpos, hbits⟩ := readField_cases (n := w) (loadReader_inv b)
  · exact absurd h (not_le.mpr hlt)
  · have hrem : remaining r = 8 * b.length - w := by
      rw [← readerBits_length, hbits, List.length_drop, loadReader_bits, memBits_length]
    have hcount : valMsb ((memBits b).take w) = fieldAt w (memBits b) 0 := rfl
    rw [loadReader_bits, hcount] at hsome
    have hgot : min (fieldAt w (memBits b) 0) (remaining r / w) = fieldsRead b w := by
      rw [hrem, fieldsRead, Nat.div_eq_sub_div hw h, Nat.add_sub_cancel]
    obtain ⟨hpos', hmask⟩ := posdLoop_closed hw (fieldAt w (memBits b) 0) hinv (blankMask_length total)
    obtain ⟨-, hinv', -⟩ := posdLoop_bounds total w (fieldAt w (memBits b) 0) (blankMask total) hinv
    have hscan : posdScan b total w = ((posdLoop total w (fieldAt w (memBits b) 0) r (blankMask total)).1,
        consumed (posdLoop total w (fieldAt w (memBits b) 0) r (blankMask total)).2) := by
      simp only [posdScan, hsome]
    rw [hscan]
    refine ⟨?_, fun x => ?_⟩
    · rw [consumed_eq hinv', hpos', hpos, hgot]
      show (0 + w + _ + 7) / 8 = _
      congr 1
      ring
    · rw [hmask, hgot, hbits]
      simp [blankMask_get_ne_true, fieldAt_drop]

/-- Settles O35, by the closed form of the index loop behind the count field. -/
theorem posdDecodeClosedForm : Obligations.PosdDecodeClosedForm := by
  intro b total w hw1 hw32 field avail got
  have hw : 0 < w := hw1
  refine ⟨_, _, fun s => exec_posdDecode_of_widthOk ⟨hw1, hw32⟩ b total s, rfl, (posdScan_bounds b total w).1,
    fun havail => ?_, fun havail => ?_⟩
  · have hshort : 8 * b.length < w := (Nat.div_eq_zero_iff_lt hw).mp havail
    rw [posdScan_of_no_field hshort]
    exact ⟨rfl, blankMask_get_ne_true total⟩
  · exact posdScan_of_field hw ((Nat.one_le_div_iff hw).mp havail) total

/-! ### The positional encoder and both together -/

/-- The last of a strictly rising list is the largest. -/
theorem le_getLast_of_pairwise {l : List Nat} (h : l.Pairwise (· < ·)) (hl : l ≠ []) {x : Nat} (hx : x ∈ l) :
    x ≤ l.getLast hl := by
  rw [← List.dropLast_append_getLast hl, List.mem_append, List.mem_singleton] at hx
  rw [← List.dropLast_append_getLast hl, List.pairwise_append] at h
  obtain hx | rfl := hx
  · exact (h.2.2 x hx _ (List.mem_singleton_self _)).le
  · exact le_rfl

/-- POSE overflows exactly where the count or an index does not fit the width (R163). -/
theorem poseOverflow_ones_iff (m : Mask) (w : Nat) :
    poseOverflow (ones m) w = true ↔ 2 ^ w ≤ m.count true ∨ ∃ x : Nat, m[x]? = some true ∧ 2 ^ w ≤ x := by
  constructor
  · intro h
    by_contra hfits
    simp only [not_or, not_exists, not_and, not_le] at hfits
    obtain ⟨hcount, hidx⟩ := hfits
    have hno := poseOverflow_eq_false (by rwa [ones_length]) fun x hx => hidx x ((mem_ones m x).mp hx)
    exact nomatch h.symm.trans hno
  · rintro (hcount | ⟨x, hx, hle⟩)
    · simp [poseOverflow, ones_length, hcount]
    · have hmem := (mem_ones m x).mpr hx
      have hne := List.ne_nil_of_mem hmem
      have hlast := hle.trans (le_getLast_of_pairwise (ones_ascending m) hne hmem)
      simp [poseOverflow, List.getLast?_eq_getLast_of_ne_nil hne, hlast]

theorem poseBytes_eq_none_iff (m : Mask) (w : Nat) :
    poseBytes m w = none ↔ 2 ^ w ≤ m.count true ∨ ∃ x : Nat, m[x]? = some true ∧ 2 ^ w ≤ x := by
  rw [← poseOverflow_ones_iff, poseBytes]
  cases poseOverflow (ones m) w <;> simp

/-- Where POSE gives bytes, the count and every index fit the width (R163). -/
theorem fits_of_poseBytes_eq_some {m : Mask} {w : Nat} {e : Memory} (h : poseBytes m w = some e) :
    m.count true < 2 ^ w ∧ ∀ x : Nat, m[x]? = some true → x < 2 ^ w := by
  have hfits := mt (poseBytes_eq_none_iff m w).mpr (by simp [h])
  simpa only [not_or, not_exists, not_and, not_le] using hfits

/-- Two masks of one size with the same positions set are the same. -/
theorem mask_ext {m m' : Mask} (hlen : m.length = m'.length)
    (h : ∀ x : Nat, m[x]? = some true ↔ m'[x]? = some true) : m = m' := by
  refine List.ext_getElem hlen fun x hx hx' => ?_
  have hbit := h x
  rw [List.getElem?_eq_getElem hx, List.getElem?_eq_getElem hx', Option.some.injEq, Option.some.injEq] at hbit
  exact Bool.eq_iff_iff.mpr hbit

/-- POSD.DECODE gives back the mask POSE.ENCODE encoded, whatever follows (R170). -/
theorem posdScan_poseBytes_append {m : Mask} {w : Nat} (hw : 0 < w) {e : Memory} (h : poseBytes m w = some e)
    (tail : Memory) : posdScan (e ++ tail) m.length w = (m, e.length) := by
  obtain ⟨hcount, hidx⟩ := fits_of_poseBytes_eq_some h
  rw [poseBytes_of_fits hcount hidx] at h
  obtain rfl := Option.some.inj h
  obtain ⟨hbits, hlen⟩ := flushWriter_writeFields w ((ones m).length :: ones m)
  generalize (flushWriter (writeFields emptyWriter w ((ones m).length :: ones m))).out = e at hbits hlen
  have hfits : ∀ v ∈ (ones m).length :: ones m, v < 2 ^ w :=
    List.forall_mem_cons.mpr ⟨by rwa [ones_length], fun x hx => hidx x ((mem_ones m x).mp hx)⟩
  have hfield {j : Nat} (hj : j < ((ones m).length :: ones m).length) :
      fieldAt w (memBits (e ++ tail)) j = ((ones m).length :: ones m)[j] := by
    rw [memBits_append, hbits, List.append_assoc, fieldAt_flatMap hfits _ hj]
  rw [List.length_cons] at hlen hbits
  have hroom : ((ones m).length + 1) * w ≤ 8 * (e ++ tail).length := by
    rw [List.length_append]
    omega
  have hread : fieldsRead (e ++ tail) w = (ones m).length := by
    rw [fieldsRead, hfield (Nat.succ_pos _), List.getElem_cons_zero]
    have := (Nat.le_div_iff_mul_le hw).mpr hroom
    omega
  have hcountField : w ≤ ((ones m).length + 1) * w := Nat.le_mul_of_pos_left w (Nat.succ_pos _)
  obtain ⟨hk, hmask⟩ := posdScan_of_field hw (hcountField.trans hroom) m.length
  rw [hread] at hk hmask
  refine Prod.ext (mask_ext (posdScan_bounds _ _ _).1 fun x => ?_) (hk.trans hlen.symm)
  rw [hmask, ← mem_ones]
  constructor
  · rintro ⟨-, j, hj, hjx⟩
    rw [hfield (Nat.succ_lt_succ hj), List.getElem_cons_succ] at hjx
    exact hjx ▸ List.getElem_mem hj
  · intro hx
    obtain ⟨j, hj, hjx⟩ := List.getElem_of_mem hx
    refine ⟨(List.getElem?_eq_some_iff.mp ((mem_ones m x).mp hx)).1, j, hj, ?_⟩
    rw [hfield (Nat.succ_lt_succ hj), List.getElem_cons_succ, hjx]

/-- Where POSE.ENCODE answers bytes, they are the payload of its mask. -/
theorem poseBytes_of_exec {m : Mask} {w : Nat} {e : Memory} {s t : State} (hw : widthOk w)
    (h : exec (.poseEncode m w) s = .next t) (hresult : t.result = some (.bytes e)) : poseBytes m w = some e := by
  cases hb : poseBytes m w with
  | none =>
    obtain rfl := Host.Outcome.next.inj (h.symm.trans (exec_poseEncode_of_none hw hb s))
    cases hresult
  | some e' =>
    obtain rfl := Host.Outcome.next.inj (h.symm.trans (exec_poseEncode_of_some hw hb s))
    rw [Result.bytes.inj (Option.some.inj hresult)]

/-- Settles O36: the fields POSD reads are the count and the indices POSE wrote. -/
theorem positionalRoundTrip : Obligations.PositionalRoundTrip := by
  intro m w e tail s t hw1 hw32 h hresult u
  rw [exec_posdDecode_of_widthOk ⟨hw1, hw32⟩,
    posdScan_poseBytes_append hw1 (poseBytes_of_exec ⟨hw1, hw32⟩ h hresult) tail]

/-- Settles O32, by the operand check of both operations and the range of INDEX_BITS. -/
theorem positionalWidthRefused : Obligations.PositionalWidthRefused := by
  refine ⟨fun s w n m b hw => ?_, fun c => widthOk_indexBits⟩
  have hno : ¬ widthOk w := by rw [widthOk_iff]; omega
  exact ⟨exec_poseEncode_of_not_widthOk hno m s, exec_posdDecode_of_not_widthOk hno b n s⟩

/-- POSE.ENCODE of a legal width overflows exactly where the count or an index does not fit (R163). -/
theorem exec_poseEncode_eq_overflow_iff {w : Nat} (hw : widthOk w) (m : Mask) (s : State) :
    exec (.poseEncode m w) s = .next (s.withResult .overflow) ↔
      2 ^ w ≤ m.count true ∨ ∃ x : Nat, m[x]? = some true ∧ 2 ^ w ≤ x := by
  rw [← poseBytes_eq_none_iff]
  refine ⟨fun h => ?_, fun hb => exec_poseEncode_of_none hw hb s⟩
  cases hb : poseBytes m w with
  | none => rfl
  | some e => exact nomatch result_unique_of_exec h (exec_poseEncode_of_some hw hb s)

/-- With the least width for `n` positions no index overflows, and the count only where all of `2^w` positions are set
(R163). -/
theorem overflow_clog2_iff (m : Mask) :
    (2 ^ clog2 m.length ≤ m.count true ∨ ∃ x : Nat, m[x]? = some true ∧ 2 ^ clog2 m.length ≤ x) ↔
      (∃ k, m.length = 2 ^ k) ∧ ∀ b ∈ m, b = true := by
  have hroom : m.length ≤ 2 ^ clog2 m.length := clog2_eq_clog m.length ▸ Nat.le_pow_clog Nat.one_lt_two m.length
  have hcount : m.count true ≤ m.length := List.count_le_length
  constructor
  · rintro (hover | ⟨x, hx, hle⟩)
    · have hall : m.count true = m.length := by omega
      exact ⟨⟨clog2 m.length, by omega⟩, fun b hb => (List.count_eq_length.mp hall b hb).symm⟩
    · have hlt : x < m.length := (List.getElem?_eq_some_iff.mp hx).1
      omega
  · rintro ⟨⟨k, hk⟩, hall⟩
    have hwidth : clog2 m.length = k := by rw [clog2_eq_clog, hk, Nat.clog_pow 2 k Nat.one_lt_two]
    rw [hwidth, List.count_eq_length.mpr fun b hb => (hall b hb).symm]
    exact .inl hk.ge

/-- Settles O33, by the overflow test on the ascending indices, and for the least width of the mask. -/
theorem poseOverflowExactly : Obligations.PoseOverflowExactly := by
  refine ⟨fun m w s hw1 hw32 => exec_poseEncode_eq_overflow_iff ⟨hw1, hw32⟩ m s, fun m s hmin hmax => ?_⟩
  have hw : widthOk (clog2 m.length) := by
    rw [clog2_eq_clog]
    exact ⟨Nat.clog_pos Nat.one_lt_two hmin, Nat.clog_le_of_le_pow hmax⟩
  rw [exec_poseEncode_eq_overflow_iff hw, overflow_clog2_iff]

theorem bitsMsb_zero (n : Nat) : bitsMsb 0 n = List.replicate n false := by
  induction n with
  | zero => rfl
  | succ n ih => rw [bitsMsb, ih, Nat.zero_testBit, List.replicate_succ]

/-- Zero bytes are zero bits. -/
theorem memBits_replicate_zero (k : Nat) : memBits (List.replicate k 0) = List.replicate (8 * k) false := by
  induction k with
  | zero => rfl
  | succ k ih =>
    have hzero : byteBits 0 = List.replicate 8 false := bitsMsb_zero 8
    rw [List.replicate_succ, memBits_cons, ih, hzero, List.replicate_append_replicate, Nat.mul_succ, Nat.add_comm]

theorem ones_blankMask (n : Nat) : ones (blankMask n) = [] :=
  List.eq_nil_iff_forall_not_mem.mpr fun x hx => blankMask_get_ne_true n x ((mem_ones _ x).mp hx)

/-- The payload of a blank mask is a count of zero and its padding (R171). -/
theorem poseBytes_blankMask (n w : Nat) : poseBytes (blankMask n) w = some (List.replicate ((w + 7) / 8) 0) := by
  have hcount : (blankMask n).count true < 2 ^ w := by
    rw [← ones_length, ones_blankMask]
    exact Nat.two_pow_pos w
  rw [poseBytes_of_fits hcount fun x hx => absurd hx (blankMask_get_ne_true n x), ones_blankMask, List.length_nil]
  obtain ⟨hbits, hlen⟩ := flushWriter_writeFields w [0]
  rw [List.length_singleton, Nat.one_mul] at hbits hlen
  refine congrArg some (memBits_injective ?_)
  rw [hbits, hlen, memBits_replicate_zero, List.flatMap_singleton, bitsMsb_zero, List.replicate_append_replicate]
  congr 1
  omega

/-- Settles O37: a blank mask is a payload of zero bytes, and its exclusive or changes nothing. -/
theorem emptyDelta : Obligations.EmptyDelta := by
  intro n w s hw1 hw32
  have hscan := posdScan_poseBytes_append hw1 (poseBytes_blankMask n w) []
  rw [List.append_nil, blankMask_length, List.length_replicate] at hscan
  refine ⟨exec_poseEncode_of_some ⟨hw1, hw32⟩ (poseBytes_blankMask n w) s, ?_,
    fun canvas hlen => hlen ▸ xorMask_blank canvas⟩
  rw [exec_posdDecode_of_widthOk ⟨hw1, hw32⟩, hscan, blankMask]

end Sys2Proof.Machine

/-! Proofs: the frame encoder (44_frame_encoder.md R181 to R187). -/

namespace Sys2Proof.Machine

open Sys2Proof

/-- The audio control is checked first (R183). -/
theorem frameCheck_of_ac_length {ac : Memory} (h : ac.length ≠ acBytes) (c : Config) (px : Mask) :
    frameCheck c ac px = some .acLength := if_pos h

theorem frameCheck_of_pixels_length {c : Config} {ac : Memory} {px : Mask} (hac : ac.length = acBytes)
    (hpx : px.length ≠ c.totalPixels) : frameCheck c ac px = some .pixelsLength := by
  simp [frameCheck, hac, hpx]

theorem frameCheck_eq_some {c : Config} {ac : Memory} {px : Mask} {code : FaultCode}
    (h : frameCheck c ac px = some code) : code = .acLength ∨ code = .pixelsLength := by
  unfold frameCheck at h
  split_ifs at h
  · exact .inl (Option.some.inj h).symm
  · exact .inr (Option.some.inj h).symm

/-- Settles O38, by the checks of FE.ENCODE_FRAME in their order. -/
theorem feResetAndRefusals : Obligations.FeResetAndRefusals := by
  refine fun s ac px => ⟨rfl, rfl, fun hac => ?_, fun hac hpx => ?_⟩
  · exact exec_of_encoderStep (.refused (frameCheck_of_ac_length hac s.cfg px))
  · exact exec_of_encoderStep (.refused (frameCheck_of_pixels_length hac hpx))

/-- FE selects the shorter of the candidates, and RLE where they tie or there is no positional one (R184, R185). -/
theorem selectPayload_cases (m : Mask) (w : Nat) :
    (selectPayload m w = (hdrRleByte, rleeBytes m) ∧
      ∀ b, poseBytes m w = some b → (rleeBytes m).length ≤ b.length) ∨
    ∃ b, poseBytes m w = some b ∧ b.length < (rleeBytes m).length ∧ selectPayload m w = (hdrPosByte, b) := by
  cases hb : poseBytes m w with
  | none => exact .inl ⟨selectPayload_of_none hb, nofun⟩
  | some b =>
    obtain hle | hlt := le_or_gt (rleeBytes m).length b.length
    · exact .inl ⟨selectPayload_of_rle_le hb hle, fun _ h => Option.some.inj h ▸ hle⟩
    · exact .inr ⟨b, rfl, hlt, selectPayload_of_pos_lt hb hlt⟩

/-- A positional payload holds at least the count field (R165). -/
theorem one_le_length_of_poseBytes {m : Mask} {w : Nat} (hw : 0 < w) {b : Memory} (h : poseBytes m w = some b) :
    1 ≤ b.length := by
  obtain ⟨hcount, hidx⟩ := fits_of_poseBytes_eq_some h
  rw [poseBytes_of_fits hcount hidx] at h
  obtain rfl := Option.some.inj h
  obtain ⟨-, hlen⟩ := flushWriter_writeFields w ((ones m).length :: ones m)
  rw [List.length_cons] at hlen
  have hcountField : w ≤ ((ones m).length + 1) * w := Nat.le_mul_of_pos_left w (Nat.succ_pos _)
  omega

theorem one_le_length_rleeBytes {m : Mask} (h : 1 ≤ m.length) : 1 ≤ (rleeBytes m).length := by
  have hlen := length_le_length_rleeBytes_mul_maxRun m
  rw [Nat.one_le_iff_ne_zero]
  intro hzero
  rw [hzero, Nat.zero_mul] at hlen
  omega

/-- The bytes the two encoders answer for a mask are the two candidates of FE (R184). -/
theorem candidate_of_exec {b : Memory} {mask : Mask} {w : Nat} {s : State} (hw : widthOk w)
    (h : exec (.rleeEncode mask) s = .next (s.withResult (.bytes b)) ∨
      exec (.poseEncode mask w) s = .next (s.withResult (.bytes b))) :
    b = rleeBytes mask ∨ poseBytes mask w = some b :=
  h.imp eq_rleeBytes_of_exec fun hpose => poseBytes_of_exec hw hpose rfl

/-- Settles O40: the payload is the shorter of two candidates that are not empty. -/
theorem feRecordShape : Obligations.FeRecordShape := by
  intro s ac px hinv hac hpx
  obtain ⟨hlegal, -, -, hprev, -, -⟩ := hinv
  have hw : widthOk (indexBits s.cfg) := widthOk_indexBits hlegal
  have hmask : 1 ≤ (xorMask px s.fe.prev).length := by
    have hmin : 2 ≤ s.cfg.totalPixels := hlegal.1
    rw [xorMask_length, hpx, hprev]
    omega
  obtain ⟨hsel, hmin⟩ | ⟨p, hp, hlt, hsel⟩ := selectPayload_cases (xorMask px s.fe.prev) (indexBits s.cfg)
  · refine ⟨_, _, exec_feEncodeFrame_of_accepted hac hpx hsel, .inl rfl, one_le_length_rleeBytes hmask,
      fun b hb => ?_⟩
    obtain rfl | hb := candidate_of_exec hw hb
    · exact le_rfl
    · exact hmin b hb
  · refine ⟨_, _, exec_feEncodeFrame_of_accepted hac hpx hsel, .inr rfl, one_le_length_of_poseBytes hw.1 hp,
      fun b hb => ?_⟩
    obtain rfl | hb := candidate_of_exec hw hb
    · exact hlt.le
    · rw [Option.some.inj (hp.symm.trans hb)]

end Sys2Proof.Machine

/-! Proofs: the frame decoder and the two of them together (45_frame_decoder.md R201, R205, R207, R210, R211, R213). -/

namespace Sys2Proof.Machine

open Sys2Proof

/-- Settles O41. -/
theorem fdStartBeginsStream : Obligations.FdStartBeginsStream :=
  fun _ _ => ⟨rfl, _, rfl, rfl, rfl, rfl, rfl, rfl, rfl, rfl⟩

/-- Settles O47. -/
theorem fdStatusReports : Obligations.FdStatusReports := fun _ => ⟨rfl, rfl⟩

theorem decodeRecord_eq_none_iff (c : Config) (d : Decoder) :
    decodeRecord c d = none ↔ d.stream.length - d.pos < 3 := by
  obtain ⟨hshort, hnone⟩ | ⟨a, b, h, rest, -, hlen, hsome⟩ := decodeRecord_cases c d
  · simp [hshort, hnone]
  · rw [hsome]
    simp
    omega

/-- FD.STEP where fewer than three bytes remain, by what it does to the decoder (R205). -/
theorem exec_fdStep_of_none {s : State} (h : decodeRecord s.cfg s.fd = none) :
    exec .fdStep s = .next ((s.withScan .idle).withResult .endOfStream) :=
  exec_fdStep_of_short ((decodeRecord_eq_none_iff _ _).mp h)

/-- FD.STEP on a record, by what it does to the decoder (R204). -/
theorem exec_fdStep_of_some {s : State} {f : Frame} {d : Decoder} (h : decodeRecord s.cfg s.fd = some (f, d)) :
    exec .fdStep s = .next (((s.withFd d).withScan .idle).withResult (.frame f)) := by
  simp [exec, execFdStep, h]

theorem exec_fdRun (s : State) : exec .fdRun s =
    .next (((s.withFd (decodeAll s.cfg s.fd.stream.length s.fd).2).withScan .idle).withResult
      (.frames (decodeAll s.cfg s.fd.stream.length s.fd).1)) := rfl

/-- After an `End` no operation but FD.START and RESET moves the decoder (R205). -/
theorem exec_fd_eq_of_ended {i : Instr} {s t : State} (hended : decodeRecord s.cfg s.fd = none)
    (h : exec i s = .next t) (hi : i.slot = .command) (hreset : i ≠ .reset) (hstart : ∀ b, i ≠ .fdStart b) :
    t.fd = s.fd := by
  cases exec_effect h with
  | decoder hstep =>
    cases hstep with
    | start => exact absurd rfl (hstart _)
    | ended | status => rfl
    | record hsome => exact nomatch hended.symm.trans hsome
    | run => simp [decodeAll_of_none hended]
  | reset hi => exact absurd hi hreset
  | finish hslot => exact absurd hi hslot
  | writer | reader | codec | encoder | walk => rfl

theorem execAll_fd_eq_of_ended {is : List Instr} {s u : State} (hended : decodeRecord s.cfg s.fd = none)
    (his : ∀ i ∈ is, i.slot = .command ∧ i ≠ .reset ∧ ∀ b, i ≠ .fdStart b) (h : execAll is s = some u) :
    u.fd = s.fd := by
  induction is generalizing s with
  | nil => rw [Option.some.inj h]
  | cons i is ih =>
    obtain ⟨⟨hi, hreset, hstart⟩, his⟩ := List.forall_mem_cons.mp his
    obtain ⟨t, hexec, hrest⟩ := exists_next_of_execAll_cons h
    have hfd := exec_fd_eq_of_ended hended hexec hi hreset hstart
    rw [decodeRecord_eq_none_iff, ← hfd] at hended
    exact (ih ((decodeRecord_eq_none_iff _ _).mpr hended) his hrest).trans hfd

/-- Settles O42: with fewer than three bytes left the decoder stays as it is, and the next FD.STEP finds it so. -/
theorem fdStepEndOfStream : Obligations.FdStepEndOfStream := by
  intro s
  cases hrec : decodeRecord s.cfg s.fd with
  | none =>
    refine ⟨_, exec_fdStep_of_none hrec, iff_of_true rfl ((decodeRecord_eq_none_iff _ _).mp hrec), fun _ => ?_⟩
    refine ⟨rfl, rfl, rfl, rfl, rfl, rfl, fun is u his h => ?_⟩
    have hfd : u.fd = s.fd := execAll_fd_eq_of_ended (s := (s.withScan .idle).withResult .endOfStream) hrec his h
    have hended : decodeRecord u.cfg u.fd = none :=
      (decodeRecord_eq_none_iff _ _).mpr (hfd ▸ (decodeRecord_eq_none_iff _ _).mp hrec)
    exact ⟨_, exec_fdStep_of_none hended, rfl, hfd⟩
  | some p =>
    have hlong : ¬ s.fd.stream.length - s.fd.pos < 3 := by simp [← decodeRecord_eq_none_iff s.cfg, hrec]
    exact ⟨_, exec_fdStep_of_some hrec, iff_of_false nofun hlong, nofun⟩

/-- The decoder of a payload is selected by the method bit alone (R82). -/
theorem decodePayload_congr {h h' : Byte} (hm : h.toNat / 128 = h'.toNat / 128) (c : Config) (rest : Memory) :
    decodePayload c h rest = decodePayload c h' rest := by
  have htop : topBit h = topBit h' := by
    rw [topBit_eq_decide, topBit_eq_decide]
    exact decide_eq_decide.mpr (by omega)
  rw [decodePayload, decodePayload, htop]

/-- Settles O44: the reserved bits reach only the flag. -/
theorem reservedHeaderBitsIgnored : Obligations.ReservedHeaderBitsIgnored := by
  intro s s' t t' a b h h' rest before hcfg hcanvas hseen hpos hpos' hstream hstream' hm hexec hexec'
  have hrec : s.fd.stream.drop s.fd.pos = a :: b :: h :: rest := by rw [hstream, hpos, List.drop_left]
  have hrec' : s'.fd.stream.drop s'.fd.pos = a :: b :: h' :: rest := by rw [hstream', hpos', List.drop_left]
  rw [exec_fdStep_of_record hrec, finishRecord_eq] at hexec
  rw [exec_fdStep_of_record hrec', finishRecord_eq] at hexec'
  obtain rfl := Host.Outcome.next.inj hexec
  obtain rfl := Host.Outcome.next.inj hexec'
  have hpayload : decodePayload s.cfg h rest = decodePayload s'.cfg h' rest := hcfg ▸ decodePayload_congr hm _ _
  simp [hpayload, hcanvas, hpos, hpos', reservedSet_lowSeven]

/-- FD.STEP never clears the flag (R33). -/
theorem decodeRecord_rsvdSeen {c : Config} {d d' : Decoder} {f : Frame} (h : decodeRecord c d = some (f, d'))
    (hseen : d.rsvdSeen = true) : d'.rsvdSeen = true := by
  obtain ⟨-, hnone⟩ | ⟨a, b, hd, rest, -, -, hsome⟩ := decodeRecord_cases c d
  · exact nomatch h.symm.trans hnone
  · obtain ⟨-, rfl⟩ := Prod.mk.inj (Option.some.inj (h.symm.trans hsome))
    simp [hseen]

/-- Settles O45: of the rules that reach the decoder, FD.START and RESET make it new and the others only set the
flag. -/
theorem reservedFlagIsSticky : Obligations.ReservedFlagIsSticky := by
  intro i s t h
  cases exec_effect h with
  | decoder hstep =>
    generalize hd : s.fd = d at hstep
    subst hd
    cases hstep with
    | start => exact ⟨fun _ _ => .inr ⟨_, rfl⟩, nofun⟩
    | ended | status =>
      exact ⟨fun hs ht => (nomatch hs.symm.trans ht), fun hs ht => (nomatch hs.symm.trans ht)⟩
    | record hsome =>
      exact ⟨fun hs ht => (nomatch (decodeRecord_rsvdSeen hsome hs).symm.trans ht),
        fun _ _ => .inl rfl⟩
    | run =>
      refine ⟨fun hs ht => ?_, fun _ _ => .inr (.inl rfl)⟩
      have hseen := decodeAll_preserves (c := s.cfg) (P := fun d => d.rsvdSeen = true)
        (fun _ _ _ => decodeRecord_rsvdSeen) s.fd.stream.length hs
      exact nomatch hseen.symm.trans ht
  | reset hi => exact ⟨fun _ _ => .inl hi, nofun⟩
  | finish hslot => exact ⟨fun hs ht => by simp [hs] at ht, fun _ _ => .inr (.inr hslot)⟩
  | writer | reader | codec | encoder | walk =>
    exact ⟨fun hs ht => (nomatch hs.symm.trans ht), fun hs ht => (nomatch hs.symm.trans ht)⟩

/-- As many FD.STEP as FD.RUN delivers frames deliver those frames and reach the same decoder (R210). -/
theorem execAll_fdStep_eq_decodeAll (fuel : Nat) (s : State) :
    ∃ u, execAll (List.replicate (decodeAll s.cfg fuel s.fd).1.length .fdStep) s = some u ∧
      resultsOf (List.replicate (decodeAll s.cfg fuel s.fd).1.length .fdStep) s =
        (decodeAll s.cfg fuel s.fd).1.map Result.frame ∧
      u.fd = (decodeAll s.cfg fuel s.fd).2 ∧ u.cfg = s.cfg := by
  induction fuel generalizing s with
  | zero => exact ⟨s, rfl, rfl, rfl, rfl⟩
  | succ fuel ih =>
    cases hrec : decodeRecord s.cfg s.fd with
    | none =>
      rw [decodeAll_of_none hrec]
      exact ⟨s, rfl, rfl, rfl, rfl⟩
    | some p =>
      have hstep := exec_fdStep_of_some hrec
      obtain ⟨u, hexec, hresults, hfd, hcfg⟩ := ih (((s.withFd p.2).withScan .idle).withResult (.frame p.1))
      rw [decodeAll_of_some hrec, List.length_cons, List.replicate_succ, execAll_cons_of_next hstep,
        resultsOf_cons_of_next hstep]
      exact ⟨u, hexec, congrArg (Result.frame p.1 :: ·) hresults, hfd, hcfg⟩

/-- Settles O46, by the number of frames: FD.RUN stops where FD.STEP answers `End`. -/
theorem fdRunIsRepeatedStep : Obligations.FdRunIsRepeatedStep := by
  refine ⟨rfl, fun s => ?_⟩
  obtain ⟨u, hexec, hresults, hfd, hcfg⟩ := execAll_fdStep_eq_decodeAll s.fd.stream.length s
  obtain ⟨hended, -, hcount⟩ := decodeAll_spec s.cfg s.fd.stream.length s.fd (by omega)
  rw [← hfd, ← hcfg] at hended
  exact ⟨_, u, _, _, exec_fdRun s, rfl, hexec, hresults, exec_fdStep_of_none hended, rfl, hfd, by omega, rfl, rfl, rfl,
    rfl, rfl⟩

/-- Settles O49: the rules of FD answer no fault, and a frame is refused only by its two checks. -/
theorem noStreamIsFatal : Obligations.NoStreamIsFatal := by
  have hdecoder {i : Instr} (s : State) (hi : IsDecoderOp i) :
      ∃ t, exec i s = .next t ∧ ∀ code, t.result ≠ some (.fault code) := by
    obtain ⟨d, r, hstep⟩ := exists_decoderStep hi s.cfg s.fd
    obtain ⟨x, -, hexec⟩ := exec_of_decoderStep hstep
    refine ⟨_, hexec, fun code hfault => ?_⟩
    obtain rfl := Option.some.inj hfault
    cases hstep
  constructor
  · rintro i s (⟨b, n, rfl⟩ | ⟨b, n, w, rfl, hw⟩ | hi | hi | hi | hi)
    · exact ⟨_, exec_rledDecode b n s, nofun⟩
    · exact ⟨_, exec_posdDecode_of_widthOk hw b n s, nofun⟩
    · exact hdecoder s (.inr (.inr (.inr hi)))
    · exact hdecoder s (.inl hi)
    · exact hdecoder s (.inr (.inl hi))
    · exact hdecoder s (.inr (.inr (.inl hi)))
  · intro s t ac px code h hfault
    obtain ⟨m, r, hstep⟩ := exists_encoderStep (i := .feEncodeFrame ac px) (.inr ⟨ac, px, rfl⟩) s.cfg s.fe.prev
    obtain rfl := Host.Outcome.next.inj (h.symm.trans (exec_of_encoderStep hstep))
    obtain rfl := Option.some.inj hfault
    cases hstep with
    | refused hcheck => exact frameCheck_eq_some hcheck

/-! ### From the frames through the stream back to the frames -/

/-- The payload FE selects is decoded to its mask, whatever follows (R151, R170). -/
theorem decodePayload_selectPayload {c : Config} (hlegal : c.legal) {m : Mask} (hm : m.length = c.totalPixels)
    (tail : Memory) :
    decodePayload c (selectPayload m (indexBits c)).1 ((selectPayload m (indexBits c)).2 ++ tail) =
      (m, (selectPayload m (indexBits c)).2.length) := by
  obtain ⟨hsel, -⟩ | ⟨b, hb, -, hsel⟩ := selectPayload_cases m (indexBits c)
  · rw [hsel, decodePayload_of_rle (h := hdrRleByte) (by decide), ← hm, rledScan_rleeBytes_append]
  · rw [hsel, decodePayload_of_pos (h := hdrPosByte) (by decide), ← hm,
      posdScan_poseBytes_append (widthOk_indexBits hlegal).1 hb]

/-- A record and its payload are delivered (R204). -/
theorem decodeRecord_of_record {c : Config} {d : Decoder} {a b h : Byte} {rest : Memory} {m : Mask} {k : Nat}
    (hrec : d.stream.drop d.pos = a :: b :: h :: rest) (hpayload : decodePayload c h rest = (m, k)) :
    decodeRecord c d = some (⟨[a, b], xorMask d.canvas m⟩, deliver d m k (reservedSet (lowSeven h))) := by
  simp [decodeRecord, restFrom, hrec, hpayload]

/-- A frame, its audio control and its pixels, that FE accepts in a block of this configuration (R183). -/
def FrameOk (c : Config) (f : Memory × Mask) : Prop := f.1.length = 2 ∧ f.2.length = c.totalPixels

/-- FD.STEP on the record of a frame, with the reference frame on the canvas, delivers the frame (R213). -/
theorem decodeRecord_encodeRecord {c : Config} (hlegal : c.legal) {d : Decoder} {f : Memory × Mask} (hf : FrameOk c f)
    (hcanvas : d.canvas.length = c.totalPixels) {tail : Memory}
    (hstream : d.stream.drop d.pos = encodeRecord c d.canvas f.1 f.2 ++ tail) :
    ∃ d', decodeRecord c d = some (⟨f.1, f.2⟩, d') ∧ d'.stream = d.stream ∧ d'.canvas = f.2 ∧
      d'.pos = d.pos + (encodeRecord c d.canvas f.1 f.2).length := by
  obtain ⟨ac, px⟩ := f
  obtain ⟨hac, hpx⟩ := hf
  match ac, hac with
  | [a, b], _ =>
    have hmask : (xorMask px d.canvas).length = c.totalPixels := by
      rw [xorMask_length, hcanvas, hpx, Nat.min_self]
    have hpayload := decodePayload_selectPayload hlegal hmask tail
    have hback : xorMask d.canvas (xorMask px d.canvas) = px := xorMask_cancel (hpx.trans hcanvas.symm)
    have hrec := decodeRecord_of_record hstream hpayload
    rw [hback] at hrec
    exact ⟨_, hrec, rfl, hback, by simp [encodeRecord]; omega⟩

/-- The records of a list of frames, each against the frame before it (R186). -/
def encodeRecords (c : Config) : Mask → List (Memory × Mask) → List Memory
  | _, [] => []
  | prev, f :: fs => encodeRecord c prev f.1 f.2 :: encodeRecords c f.2 fs

/-- FE answers the records of a list of accepted frames (R184, R186). -/
theorem execAll_feEncodeFrames {c : Config} {fs : List (Memory × Mask)} (hfs : ∀ f ∈ fs, FrameOk c f) {s : State}
    (hcfg : s.cfg = c) :
    ∃ t, execAll (fs.map fun f => .feEncodeFrame f.1 f.2) s = some t ∧
      resultsOf (fs.map fun f => .feEncodeFrame f.1 f.2) s = (encodeRecords c s.fe.prev fs).map Result.record := by
  induction fs generalizing s with
  | nil => exact ⟨s, rfl, rfl⟩
  | cons f fs ih =>
    obtain ⟨⟨hac, hpx⟩, hfs⟩ := List.forall_mem_cons.mp hfs
    subst hcfg
    have hexec := exec_feEncodeFrame_of_accepted (s := s) hac hpx Prod.mk.eta.symm
    obtain ⟨t, hrest, hresults⟩ :=
      ih hfs (s := (s.withPrev f.2).withResult (.record (encodeRecord s.cfg s.fe.prev f.1 f.2))) rfl
    refine ⟨t, ?_, ?_⟩
    · rw [List.map_cons, execAll_cons_of_next hexec]
      exact hrest
    · rw [List.map_cons, resultsOf_cons_of_next hexec]
      exact congrArg (Result.record _ :: ·) hresults

/-- FD delivers the frames of a list of records that ends the stream, and stands at the end (R213). -/
theorem decodeAll_encodeRecords {c : Config} (hlegal : c.legal) {fs : List (Memory × Mask)}
    (hfs : ∀ f ∈ fs, FrameOk c f) {d : Decoder} (hcanvas : d.canvas.length = c.totalPixels)
    (hstream : d.stream.drop d.pos = (encodeRecords c d.canvas fs).flatten) {fuel : Nat} (hfuel : fs.length ≤ fuel) :
    (decodeAll c fuel d).1 = fs.map (fun f => ⟨f.1, f.2⟩) ∧
      (decodeAll c fuel d).2.pos = d.pos + (encodeRecords c d.canvas fs).flatten.length := by
  induction fs generalizing d fuel with
  | nil =>
    have hlen : d.stream.length - d.pos = 0 := by rw [← List.length_drop, hstream]; rfl
    rw [decodeAll_of_none ((decodeRecord_eq_none_iff c d).mpr (by omega))]
    exact ⟨rfl, rfl⟩
  | cons f fs ih =>
    obtain ⟨hf, hfs⟩ := List.forall_mem_cons.mp hfs
    obtain ⟨fuel, rfl⟩ : ∃ k, fuel = k + 1 := ⟨fuel - 1, by rw [List.length_cons] at hfuel; omega⟩
    rw [encodeRecords, List.flatten_cons] at hstream ⊢
    obtain ⟨d', hrec, hstream', hcanvas', hpos'⟩ := decodeRecord_encodeRecord hlegal hf hcanvas hstream
    have hrest : d'.stream.drop d'.pos = (encodeRecords c d'.canvas fs).flatten := by
      rw [hstream', hpos', ← List.drop_drop, hstream, List.drop_left, hcanvas']
    obtain ⟨hframes, hend⟩ := ih hfs (by rw [hcanvas', hf.2]) hrest (Nat.le_of_succ_le_succ hfuel)
    rw [decodeAll_of_some hrec, hframes]
    refine ⟨rfl, ?_⟩
    rw [hend, hpos', hcanvas', List.length_append, Nat.add_assoc]

/-- Every record has at least the three bytes of its head (R80, R81). -/
theorem length_le_length_flatten_encodeRecords {c : Config} (prev : Mask) (fs : List (Memory × Mask)) :
    fs.length ≤ (encodeRecords c prev fs).flatten.length := by
  induction fs generalizing prev with
  | nil => exact Nat.zero_le _
  | cons f fs ih =>
    have hrest := ih f.2
    simp only [encodeRecords, encodeRecord, List.flatten_cons, List.length_append, List.length_cons]
    omega

/-- FD.START and FD.RUN deliver the frames of a stream (R201, R210). -/
theorem execAll_fdStart_fdRun (stream : Memory) (d : State) :
    ∃ u, execAll [.fdStart stream, .fdRun] d = some u ∧
      u.result = some (.frames (decodeAll d.cfg stream.length (startDecoder d.cfg stream)).1) ∧
      u.fd = (decodeAll d.cfg stream.length (startDecoder d.cfg stream)).2 := ⟨_, rfl, rfl, rfl⟩

/-- Settles O48: the canvas of the decoder is the reference frame of the encoder before every frame. -/
theorem endToEndLossless : Obligations.EndToEndLossless := by
  intro s d fs hlegal hcfg hfs
  have hreset : exec .feReset s = .next ((s.withPrev (blankMask s.cfg.totalPixels)).withResult .ok) := rfl
  obtain ⟨t, hexec, hresults⟩ :=
    execAll_feEncodeFrames hfs (s := (s.withPrev (blankMask s.cfg.totalPixels)).withResult .ok) rfl
  obtain ⟨hframes, hend⟩ := decodeAll_encodeRecords hlegal hfs
    (d := startDecoder s.cfg (encodeRecords s.cfg (blankMask s.cfg.totalPixels) fs).flatten)
    (blankMask_length _) rfl (length_le_length_flatten_encodeRecords (blankMask s.cfg.totalPixels) fs)
  obtain ⟨u, hrun, hresult, hfd⟩ :=
    execAll_fdStart_fdRun (encodeRecords s.cfg (blankMask s.cfg.totalPixels) fs).flatten d
  rw [hcfg] at hresult hfd
  refine ⟨t, encodeRecords s.cfg (blankMask s.cfg.totalPixels) fs, ?_, ?_, u, hrun, ?_, ?_⟩
  · rw [execAll_cons_of_next hreset, hexec]
  · rw [resultsOf_cons_of_next hreset, hresults]
    rfl
  · rw [hresult, hframes]
  · rw [hfd, hend]
    exact Nat.zero_add _

end Sys2Proof.Machine

/-! Proofs: the stream elements at their place in a record and the steps that run them (30_encoding.md R80 to R86,
70_reset_and_hazards.md R271; log 8 to log 10). -/

namespace Sys2Proof.Machine

open Sys2Proof

/-! ### The meaning of each element at its place -/

theorem exec_ac {s : State} (h : s.scan = .recordHead) (a b : Byte) :
    exec (.ac a b) s = .next (s.withScan (.headerByte a b)) := by
  simp [exec, execAc, h]

theorem exec_hdrRle {s : State} {a b : Byte} (h : s.scan = .headerByte a b) (r : BitVec 7) :
    exec (.hdrRle r) s = nextRun a b (reservedSet r) [] 0 s := by
  simp [exec, execHdrRle, h]

theorem exec_hdrPos {s : State} {a b : Byte} (h : s.scan = .headerByte a b) (r : BitVec 7) :
    exec (.hdrPos r) s = .next (s.withScan (.countField a b (reservedSet r) (loadReader (payloadRest s.fd)))) := by
  simp [exec, execHdrPos, h]

theorem exec_run {s : State} {a b : Byte} {rsv : Bool} {written : Mask} {k : Nat}
    (h : s.scan = .runs a b rsv written k) (v : Bool) (l : BitVec 7) :
    exec (.run v l) s = nextRun a b rsv (fillRun s.cfg.totalPixels written v l.toNat) (k + 1) s := by
  simp [exec, execRun, h]

theorem exec_posCount {s : State} {a b : Byte} {rsv : Bool} {rd : Reader} (h : s.scan = .countField a b rsv rd)
    (hrem : indexBits s.cfg ≤ remaining rd) (count : Nat) :
    exec (.posCount (indexBits s.cfg) count) s = .next (s.withScan
      (.indexFields a b rsv (readBits (indexBits s.cfg) rd 0).2 count (blankMask s.cfg.totalPixels))) := by
  simp [exec, execPosCount, h, fieldPresent, hrem]

theorem exec_posIndex {s : State} {a b : Byte} {rsv : Bool} {rd : Reader} {left : Nat} {mask : Mask}
    (h : s.scan = .indexFields a b rsv rd (left + 1) mask) (hrem : indexBits s.cfg ≤ remaining rd) (index : Nat) :
    exec (.posIndex (indexBits s.cfg) index) s = .next (s.withScan
      (.indexFields a b rsv (readBits (indexBits s.cfg) rd 0).2 left (setIndex s.cfg.totalPixels mask index))) := by
  simp [exec, execPosIndex, h, fieldPresent, hrem]

/-- The rest of a payload that ends before its count field (R166, log 10). -/
theorem exec_posPad_of_countField {s : State} {a b : Byte} {rsv : Bool} {rd : Reader}
    (h : s.scan = .countField a b rsv rd) (hrem : remaining rd < indexBits s.cfg) {bits : Bits}
    (hbits : bits.length = paddingWidth rd) :
    exec (.posPad bits) s = finishRecord a b rsv (blankMask s.cfg.totalPixels) (consumed rd) s := by
  simp [exec, execPosPad, h, fieldPresent, hrem, hbits]

/-- The rest of a payload behind its last field, or before a field that is not there (R167, R168, log 10). -/
theorem exec_posPad_of_indexFields {s : State} {a b : Byte} {rsv : Bool} {rd : Reader} {left : Nat} {mask : Mask}
    (h : s.scan = .indexFields a b rsv rd left mask) (hend : left = 0 ∨ remaining rd < indexBits s.cfg) {bits : Bits}
    (hbits : bits.length = paddingWidth rd) :
    exec (.posPad bits) s = finishRecord a b rsv mask (consumed rd) s := by
  simp [exec, execPosPad, h, fieldPresent, hend, hbits]

/-- Another run byte is wanted and there is one (R146). -/
theorem nextRun_of_more {s : State} {written : Mask} {k : Nat} (hfull : written.length < s.cfg.totalPixels)
    (hk : k < (payloadRest s.fd).length) (a b : Byte) (rsv : Bool) :
    nextRun a b rsv written k s = .next (s.withScan (.runs a b rsv written k)) := if_pos ⟨hfull, hk⟩

/-- The mask is full, or there is no further run byte (R146, R150). -/
theorem nextRun_of_end {s : State} {written : Mask} {k : Nat}
    (hend : s.cfg.totalPixels ≤ written.length ∨ (payloadRest s.fd).length ≤ k) (a b : Byte) (rsv : Bool) :
    nextRun a b rsv written k s = finishRecord a b rsv (padMask s.cfg.totalPixels written) k s :=
  if_neg (by omega)

/-- Settles O51, by the meaning of each element at its place. -/
theorem headElements : Obligations.HeadElements := by
  intro s a b r
  refine ⟨fun h => exec_ac h a b, fun h => ⟨exec_hdrPos h r, fun hlegal hmore => ?_, fun _ hend => ?_⟩⟩
  · have hmin : 0 < s.cfg.totalPixels := Nat.lt_of_lt_of_le Nat.two_pos hlegal.1
    rw [exec_hdrRle h, nextRun_of_more (written := []) hmin (by rw [payloadRest_length]; omega)]
    rfl
  · rw [exec_hdrRle h, nextRun_of_end (.inr (by rw [payloadRest_length]; omega))]
    exact ⟨_, rfl, rfl, rfl, rfl⟩

/-- Settles O52, by the test of the loop after the run. -/
theorem runElementFillsMask : Obligations.RunElementFillsMask := by
  intro s a b rsv v l written k h hlt w'
  have hrun : exec (.run v l) s = nextRun a b rsv w' (k + 1) s := exec_run h v l
  refine ⟨fun ⟨hfull, hmore⟩ => ?_, fun hend => ?_⟩
  · rw [hrun, nextRun_of_more hfull (by rw [payloadRest_length]; omega)]
  · rw [hrun, nextRun_of_end (by rw [payloadRest_length]; omega)]
    exact ⟨_, rfl, rfl, rfl, rfl⟩

/-- Settles O53, by the meaning of each element at its place and the reader after a field. -/
theorem positionalElements : Obligations.PositionalElements := by
  intro s a b rsv rd hinv w rd'
  have hreader (hrem : w ≤ remaining rd) : (readBits w rd 0).2 = rd' := readBits_reader hinv hrem 0
  refine ⟨fun count h hrem => ?_, fun index left mask h hrem => ?_, fun h hrem hbit => ?_,
    fun left mask bits h hend hbits => ?_⟩
  · rw [exec_posCount h hrem, hreader hrem]
    rfl
  · rw [exec_posIndex h hrem, hreader hrem]
    rfl
  · have hpad : ([] : Bits).length = paddingWidth rd := by simp [paddingWidth, hbit]
    have hconsumed : consumed rd = rd.byteIndex := by simp [consumed, hbit]
    rw [exec_posPad_of_countField h hrem hpad, hconsumed]
    exact ⟨_, rfl, rfl, rfl, rfl⟩
  · rw [exec_posPad_of_indexFields h hend hbits, consumed_eq hinv]
    exact ⟨_, rfl, rfl, rfl, rfl⟩

/-- Settles O54: each element looks at its place first. -/
theorem elementOutOfPlaceRefused : Obligations.ElementOutOfPlaceRefused := by
  intro i s hi hidle
  cases i
  case ac => simp [exec, execAc, hidle, outOfPlace]
  case hdrRle => simp [exec, execHdrRle, hidle, outOfPlace]
  case hdrPos => simp [exec, execHdrPos, hidle, outOfPlace]
  case run => simp [exec, execRun, hidle, outOfPlace]
  case posCount => simp [exec, execPosCount, hidle, outOfPlace]
  case posIndex => simp [exec, execPosIndex, hidle, outOfPlace]
  case posPad => simp [exec, execPosPad, hidle, outOfPlace]
  all_goals exact absurd rfl hi

/-! ### The instruction a step runs -/

theorem fetchPlace_idle {s : State} (h : s.scan = .idle) : fetchPlace s = (.command, s.port) := by
  simp [fetchPlace, h]

/-- A step runs the instruction decoded at the place it fetches from, unless it stands at a record head that is not
there or has no operation to run. -/
theorem step_of_decode {s : State} {i : Instr} {rest : Bits} (hport : s.scan = .idle → s.port ≠ [])
    (hhead : s.scan = .recordHead → 3 ≤ s.fd.stream.length - s.fd.pos)
    (hdec : decode (fetchPlace s).1 (fetchPlace s).2 = .ok (i, rest)) : step s = exec i (afterFetch s rest) := by
  unfold step
  obtain ⟨hidle, hnone, -⟩ | ⟨hrec, hshort, -⟩ | ⟨i', rest', hdec', hfetch⟩ | ⟨why, herr, -⟩ := fetch_cases s
  · exact absurd hnone (hport hidle)
  · exact absurd (hhead hrec) (not_le.mpr hshort)
  · obtain ⟨rfl, rfl⟩ := Prod.mk.inj (Except.ok.inj (hdec.symm.trans hdec'))
    rw [hfetch]
  · exact nomatch hdec.symm.trans herr

theorem decode_command_nil : decode .command [] = .error .truncated := rfl

theorem step_of_operation {s : State} {i : Instr} {rest : Bits} (hidle : s.scan = .idle)
    (hdec : decode .command s.port = .ok (i, rest)) : step s = exec i (s.withPort rest) := by
  have hport : s.port ≠ [] := fun hnil => by
    rw [hnil, decode_command_nil] at hdec
    cases hdec
  rw [step_of_decode (fun _ => hport) (fun hrec => nomatch hidle.symm.trans hrec) (by rwa [fetchPlace_idle hidle]),
    afterFetch_idle s rest hidle]

theorem step_of_element {s : State} {i : Instr} {rest : Bits} (hwalk : s.scan ≠ .idle)
    (hhead : s.scan = .recordHead → 3 ≤ s.fd.stream.length - s.fd.pos)
    (hdec : decode (fetchPlace s).1 (fetchPlace s).2 = .ok (i, rest)) : step s = exec i s := by
  rw [step_of_decode (fun hidle => absurd hidle hwalk) hhead hdec, afterFetch_walking s rest hwalk]

/-- A step inside a record runs the element that stands at the place of the fetch. -/
theorem step_of_place {s : State} {slot : Slot} {bits rest : Bits} {i : Instr} (hplace : fetchPlace s = (slot, bits))
    (hdec : decode slot bits = .ok (i, rest)) (hidle : s.scan ≠ .idle) (hhead : s.scan ≠ .recordHead) :
    step s = exec i s :=
  step_of_element hidle (fun hrec => absurd hrec hhead) (by rw [hplace, hdec])

/-- Settles O57. -/
theorem stepRunsDecodedInstruction : Obligations.StepRunsDecodedInstruction :=
  ⟨fun _ _ _ => step_of_operation, fun _ _ _ => step_of_element⟩

/-- Settles O58: what the host has put on the port is decoded to the operation it encodes. -/
theorem stepRunsIssuedOperation : Obligations.StepRunsIssuedOperation := by
  refine ⟨fun s i rest hidle hi hport => ?_, fun s hidle hport => ?_⟩
  · exact step_of_operation hidle (by rw [hport, decode_command_encode hi])
  · obtain ⟨-, -, hfetch⟩ | ⟨hrec, -⟩ | ⟨i, rest, hdec, -⟩ | ⟨why, herr, hfetch⟩ := fetch_cases s
    · rw [step, hfetch]
    · exact nomatch hidle.symm.trans hrec
    · rw [fetchPlace_idle hidle, hport] at hdec
      cases hdec
    · simp [step, fetch, hidle, hport]

/-! ### A step at each place of a record -/

/-- At a record head that is not there the run ends (R205). -/
theorem step_recordHead_of_short {s : State} (h : s.scan = .recordHead)
    (hshort : s.fd.stream.length - s.fd.pos < 3) :
    step s = .next ((s.withScan .idle).withResult .endOfStream) := by
  simp [step, fetch, h, (noRecordHead_iff s.fd).mpr hshort]

theorem step_recordHead {s : State} {a b : Byte} {rest : Memory} (h : s.scan = .recordHead)
    (hlong : 3 ≤ s.fd.stream.length - s.fd.pos) (hrec : s.fd.stream.drop s.fd.pos = a :: b :: rest) :
    step s = .next (s.withScan (.headerByte a b)) := by
  have hplace : fetchPlace s = (.audioControl, memBits [a, b] ++ memBits rest) := by
    simp [fetchPlace, h, restFrom, hrec]
  rw [step_of_element (by simp [h]) (fun _ => hlong) (by rw [hplace, decode_audioControl_memBits]), exec_ac h]

theorem step_headerByte {s : State} {a b x : Byte} {rest : Memory} (h : s.scan = .headerByte a b)
    (hrec : s.fd.stream.drop (s.fd.pos + 2) = x :: rest) :
    step s = if topBit x then .next (s.withScan
        (.countField a b (reservedSet (lowSeven x)) (loadReader (payloadRest s.fd))))
      else nextRun a b (reservedSet (lowSeven x)) [] 0 s := by
  have hplace : fetchPlace s = (.header, byteBits x ++ memBits rest) := by
    simp [fetchPlace, h, restFrom, hrec]
  rw [step_of_place hplace (decode_header_byteBits x _) (by simp [h]) (by simp [h])]
  split
  · exact exec_hdrPos h _
  · exact exec_hdrRle h _

theorem step_runs {s : State} {a b x : Byte} {rsv : Bool} {written : Mask} {k : Nat} {rest : Memory}
    (h : s.scan = .runs a b rsv written k) (hrec : (payloadRest s.fd).drop k = x :: rest) :
    step s = nextRun a b rsv (fillRun s.cfg.totalPixels written (topBit x) (lowSeven x).toNat) (k + 1) s := by
  have hplace : fetchPlace s = (.runByte, byteBits x ++ memBits rest) := by
    simp [fetchPlace, h, restFrom, hrec]
  rw [step_of_place hplace (decode_runByte_byteBits x _) (by simp [h]) (by simp [h]), exec_run h]

/-- An element of as many bits as there are is decoded from the first of them. -/
theorem decode_element_of_le {slot : Slot} {s : Bits} (hs : slot ≠ .command) (h : slot.width ≤ s.length) :
    decode slot s = .ok (decodeElement slot (s.take slot.width), s.drop slot.width) := by
  have hdec := decode_element_append hs (List.length_take_of_le h) (s.drop slot.width)
  rwa [List.take_append_drop] at hdec

theorem decode_countField_of_le {w : Nat} {s : Bits} (h : w ≤ s.length) :
    decode (.countField w) s = .ok (.posCount w (valMsb (s.take w)), s.drop w) :=
  decode_element_of_le (slot := .countField w) (by simp) h

theorem decode_indexField_of_le {w : Nat} {s : Bits} (h : w ≤ s.length) :
    decode (.indexField w) s = .ok (.posIndex w (valMsb (s.take w)), s.drop w) :=
  decode_element_of_le (slot := .indexField w) (by simp) h

theorem decode_padding_of_le {n : Nat} {s : Bits} (h : n ≤ s.length) :
    decode (.padding n) s = .ok (.posPad (s.take n), s.drop n) :=
  decode_element_of_le (slot := .padding n) (by simp) h

/-- The rest of the byte a reader stands in is there (R26). -/
theorem paddingWidth_le {rd : Reader} (hinv : ReaderInv rd) : paddingWidth rd ≤ (readerBits rd).length := by
  obtain ⟨hbyte, hbit, hend⟩ := hinv
  rw [readerBits_length]
  unfold paddingWidth remaining
  omega

/-- What a read of a field answers, by what the reader holds (R123). -/
theorem readField_eq_some {rd rd' : Reader} {n v : Nat} (h : readField rd n = some (v, rd')) :
    n ≤ remaining rd ∧ readBits n rd 0 = (v, rd') := by
  unfold readField at h
  split at h
  · cases h
  · exact ⟨not_lt.mp ‹_›, Option.some.inj h⟩

theorem readField_eq_none_iff {rd : Reader} {n : Nat} : readField rd n = none ↔ remaining rd < n := by
  simp [readField]

theorem step_countField_of_some {s : State} {a b : Byte} {rsv : Bool} {rd rd' : Reader} {c : Nat}
    (h : s.scan = .countField a b rsv rd) (hinv : ReaderInv rd)
    (hread : readField rd (indexBits s.cfg) = some (c, rd')) :
    step s = .next (s.withScan (.indexFields a b rsv rd' c (blankMask s.cfg.totalPixels))) := by
  obtain ⟨hrem, hbits⟩ := readField_eq_some hread
  have hplace : fetchPlace s = (.countField (indexBits s.cfg), readerBits rd) := by
    simp [fetchPlace, h, fieldSlot, fieldPresent, hrem]
  have hcount : valMsb ((readerBits rd).take (indexBits s.cfg)) = c := by rw [← readBits_value hinv hrem, hbits]
  rw [step_of_place hplace (decode_countField_of_le (readerBits_length rd ▸ hrem)) (by simp [h]) (by simp [h]), hcount,
    exec_posCount h hrem, hbits]

theorem step_countField_of_none {s : State} {a b : Byte} {rsv : Bool} {rd : Reader}
    (h : s.scan = .countField a b rsv rd) (hinv : ReaderInv rd) (hread : readField rd (indexBits s.cfg) = none) :
    step s = finishRecord a b rsv (blankMask s.cfg.totalPixels) (consumed rd) s := by
  have hrem := readField_eq_none_iff.mp hread
  have hplace : fetchPlace s = (.padding (paddingWidth rd), readerBits rd) := by
    simp [fetchPlace, h, fieldSlot, fieldPresent, hrem]
  rw [step_of_place hplace (decode_padding_of_le (paddingWidth_le hinv)) (by simp [h]) (by simp [h]),
    exec_posPad_of_countField h hrem (List.length_take_of_le (paddingWidth_le hinv))]

theorem step_indexFields_of_some {s : State} {a b : Byte} {rsv : Bool} {rd rd' : Reader} {left x : Nat} {mask : Mask}
    (h : s.scan = .indexFields a b rsv rd (left + 1) mask) (hinv : ReaderInv rd)
    (hread : readField rd (indexBits s.cfg) = some (x, rd')) :
    step s = .next (s.withScan (.indexFields a b rsv rd' left (setIndex s.cfg.totalPixels mask x))) := by
  obtain ⟨hrem, hbits⟩ := readField_eq_some hread
  have hplace : fetchPlace s = (.indexField (indexBits s.cfg), readerBits rd) := by
    simp [fetchPlace, h, fieldSlot, fieldPresent, hrem]
  have hindex : valMsb ((readerBits rd).take (indexBits s.cfg)) = x := by rw [← readBits_value hinv hrem, hbits]
  rw [step_of_place hplace (decode_indexField_of_le (readerBits_length rd ▸ hrem)) (by simp [h]) (by simp [h]), hindex,
    exec_posIndex h hrem, hbits]

theorem step_indexFields_of_end {s : State} {a b : Byte} {rsv : Bool} {rd : Reader} {left : Nat} {mask : Mask}
    (h : s.scan = .indexFields a b rsv rd left mask) (hinv : ReaderInv rd)
    (hend : left = 0 ∨ readField rd (indexBits s.cfg) = none) :
    step s = finishRecord a b rsv mask (consumed rd) s := by
  rw [readField_eq_none_iff] at hend
  have hplace : fetchPlace s = (.padding (paddingWidth rd), readerBits rd) := by
    obtain rfl | hrem := hend
    · simp [fetchPlace, h, fieldSlot]
    · simp [fetchPlace, h, fieldSlot, fieldPresent, hrem]
  rw [step_of_place hplace (decode_padding_of_le (paddingWidth_le hinv)) (by simp [h]) (by simp [h]),
    exec_posPad_of_indexFields h hend (List.length_take_of_le (paddingWidth_le hinv))]

end Sys2Proof.Machine

/-! Proofs: an FD.STEP run element by element ends where FD.STEP ends (45_frame_decoder.md R204; log 8). Each loop of
the payload decoders is matched by the steps over its elements. -/

namespace Sys2Proof.Machine

open Sys2Proof

/-- Some number of steps leads from `s` to `t`. -/
def Reaches (s t : State) : Prop := ∃ n, stepMany n s = some t

theorem Reaches.of_next {s u t : State} (hstep : step s = .next u) (h : Reaches u t) : Reaches s t := by
  obtain ⟨n, hn⟩ := h
  exact ⟨n + 1, by simp [stepMany, hstep, nextState, hn]⟩

theorem Reaches.of_step {s t : State} (hstep : step s = .next t) : Reaches s t := .of_next hstep ⟨0, rfl⟩

/-- The next state that an answer is leads to `t`. -/
def AnswerReaches (a : Answer) (t : State) : Prop := ∃ u, a = .next u ∧ (u = t ∨ Reaches u t)

theorem Reaches.of_answer {s t : State} {a : Answer} (hstep : step s = a) (h : AnswerReaches a t) : Reaches s t := by
  obtain ⟨u, rfl, rfl | h⟩ := h
  · exact .of_step hstep
  · exact .of_next hstep h

/-- The steps over the run bytes of a payload follow the loop of RLED.DECODE (R146). -/
theorem nextRun_reaches {bytes : Memory} {a b : Byte} {rsv : Bool} {written : Mask} {k : Nat} {s t : State}
    (hbytes : (payloadRest s.fd).drop k = bytes)
    (hfinish : finishRecord a b rsv (padMask s.cfg.totalPixels (rledLoop s.cfg.totalPixels bytes written k).1)
      (rledLoop s.cfg.totalPixels bytes written k).2 s = .next t) :
    AnswerReaches (nextRun a b rsv written k s) t := by
  induction bytes generalizing written k s with
  | nil =>
    have hend : (payloadRest s.fd).length ≤ k := List.drop_eq_nil_iff.mp hbytes
    exact ⟨t, by rw [nextRun_of_end (.inr hend)]; exact hfinish, .inl rfl⟩
  | cons x bytes ih =>
    obtain hlt | hfull := lt_or_ge written.length s.cfg.totalPixels
    · have hk : k < (payloadRest s.fd).length := by
        rw [← not_le, ← List.drop_eq_nil_iff, hbytes]
        exact List.cons_ne_nil x bytes
      have hrest : (payloadRest s.fd).drop (k + 1) = bytes := by
        rw [← List.drop_drop, hbytes, List.drop_succ_cons, List.drop_zero]
      rw [rledLoop_cons_of_lt hlt] at hfinish
      have hstep := step_runs (s := s.withScan (.runs a b rsv written k)) rfl hbytes
      exact ⟨_, nextRun_of_more hlt hk a b rsv, .inr (.of_answer hstep (ih hrest hfinish))⟩
    · rw [rledLoop_of_full hfull] at hfinish
      exact ⟨t, by rw [nextRun_of_end (.inl hfull)]; exact hfinish, .inl rfl⟩

/-- The steps over the index fields of a payload follow the index loop of POSD.DECODE (R167). -/
theorem indexFields_reaches {left : Nat} {a b : Byte} {rsv : Bool} {rd : Reader} {mask : Mask} {s t : State}
    (h : s.scan = .indexFields a b rsv rd left mask) (hinv : ReaderInv rd)
    (hfinish : finishRecord a b rsv (posdLoop s.cfg.totalPixels (indexBits s.cfg) left rd mask).1
      (consumed (posdLoop s.cfg.totalPixels (indexBits s.cfg) left rd mask).2) s = .next t) : Reaches s t := by
  induction left generalizing rd mask s with
  | zero => exact .of_step ((step_indexFields_of_end h hinv (.inl rfl)).trans hfinish)
  | succ left ih =>
    rw [posdLoop] at hfinish
    obtain ⟨-, hnone⟩ | ⟨-, rd', hsome, hinv', -⟩ := readField_cases (n := indexBits s.cfg) hinv
    · rw [hnone] at hfinish
      exact .of_step ((step_indexFields_of_end h hinv (.inr hnone)).trans hfinish)
    · rw [hsome] at hfinish
      exact .of_next (step_indexFields_of_some h hinv hsome) (ih rfl hinv' hfinish)

/-- The steps over a positional payload follow POSD.DECODE (R166). -/
theorem countField_reaches {a b : Byte} {rsv : Bool} {s t : State}
    (h : s.scan = .countField a b rsv (loadReader (payloadRest s.fd)))
    (hfinish : finishRecord a b rsv (posdScan (payloadRest s.fd) s.cfg.totalPixels (indexBits s.cfg)).1
      (posdScan (payloadRest s.fd) s.cfg.totalPixels (indexBits s.cfg)).2 s = .next t) : Reaches s t := by
  have hinv := loadReader_inv (payloadRest s.fd)
  rw [posdScan] at hfinish
  obtain ⟨-, hnone⟩ | ⟨-, rd', hsome, hinv', -⟩ := readField_cases (n := indexBits s.cfg) hinv
  · rw [hnone] at hfinish
    exact .of_step ((step_countField_of_none h hinv hnone).trans hfinish)
  · rw [hsome] at hfinish
    exact .of_next (step_countField_of_some h hinv hsome) (indexFields_reaches rfl hinv' hfinish)

/-- The steps behind the head of a record follow the decoder its header selects (R204). -/
theorem headerByte_reaches {a b x : Byte} {rest : Memory} {s t : State} (h : s.scan = .headerByte a b)
    (hrec : s.fd.stream.drop (s.fd.pos + 2) = x :: rest)
    (hfinish : finishRecord a b (reservedSet (lowSeven x)) (decodePayload s.cfg x rest).1
      (decodePayload s.cfg x rest).2 s = .next t) : Reaches s t := by
  have hstep := step_headerByte h hrec
  have hpayload : payloadRest s.fd = rest := by
    have hdrop : payloadRest s.fd = (s.fd.stream.drop (s.fd.pos + 2)).drop 1 := List.drop_drop.symm
    rw [hdrop, hrec, List.drop_succ_cons, List.drop_zero]
  subst hpayload
  rw [decodePayload] at hfinish
  split at hstep
  case isTrue hm =>
    rw [if_pos hm] at hfinish
    exact .of_next hstep (countField_reaches rfl hfinish)
  case isFalse hm =>
    rw [if_neg hm] at hfinish
    exact .of_answer hstep (nextRun_reaches List.drop_zero hfinish)

/-- Settles O55: the head of the record, and then its payload. -/
theorem fdStepIsElementWalk : Obligations.FdStepIsElementWalk := by
  intro s _ h
  obtain ⟨hshort, -⟩ | ⟨a, b, x, rest, hrec, hlen, -⟩ := decodeRecord_cases s.cfg s.fd
  · exact ⟨1, _, by rw [stepMany, step_recordHead_of_short h hshort]; rfl, exec_fdStep_of_short hshort⟩
  · have hhead := step_recordHead h (by omega) hrec
    have hheader : s.fd.stream.drop (s.fd.pos + 2) = x :: rest := by
      rw [← List.drop_drop, hrec]
      rfl
    obtain ⟨n, hn⟩ := Reaches.of_next hhead (headerByte_reaches (s := s.withScan (.headerByte a b)) rfl hheader rfl)
    exact ⟨n, _, hn, exec_fdStep_of_record hrec⟩

end Sys2Proof.Machine

/-! Proofs: the invariant of the block (10_state.md R24, R26, R28, R29; log 8). An operation keeps the invariant of its
unit, and each place of an element-wise FD.STEP leads to a place where the variables are those of the pseudocode. -/

namespace Sys2Proof.Machine

open Sys2Proof

theorem scanInv_of_idle {s : State} (h : s.scan = .idle) : ScanInv s := by
  simp [ScanInv, h]

/-- Every unit of a new block meets its invariant (R38). -/
theorem stateInv_ofConfig {c : Config} (h : c.legal) : StateInv (State.ofConfig c) :=
  ⟨h, emptyWriter_inv, loadReader_inv [], List.length_replicate, ⟨le_rfl, List.length_replicate⟩, scanInv_of_idle rfl⟩

/-- An operation keeps the invariant where no element-wise FD.STEP is under way. -/
theorem exec_operation_stateInv {i : Instr} {s t : State} (hi : i.slot = .command) (hidle : s.scan = .idle)
    (hinv : StateInv s) (h : exec i s = .next t) : StateInv t := by
  obtain ⟨hcfg, hbw, hbr, hfe, hfd, -⟩ := hinv
  cases exec_effect h with
  | writer hstep => exact ⟨hcfg, hstep.inv hbw, hbr, hfe, hfd, scanInv_of_idle hidle⟩
  | reader hstep => exact ⟨hcfg, hbw, hstep.inv hbr, hfe, hfd, scanInv_of_idle hidle⟩
  | codec => exact ⟨hcfg, hbw, hbr, hfe, hfd, scanInv_of_idle hidle⟩
  | encoder hstep => exact ⟨hcfg, hbw, hbr, hstep.inv hfe, hfd, scanInv_of_idle hidle⟩
  | decoder hstep hx => exact ⟨hcfg, hbw, hbr, hfe, hstep.inv hfd, scanInv_of_idle (by simpa [hidle] using hx)⟩
  | reset =>
    obtain ⟨hcfg', hbw', hbr', hfe', hfd', -⟩ := stateInv_ofConfig hcfg
    exact ⟨hcfg', hbw', hbr', hfe', hfd', scanInv_of_idle rfl⟩
  | walk hslot | finish hslot => exact absurd hi hslot

/-- Going on to the next place of a record changes only what the invariant says of that place. -/
theorem StateInv.withScan {s : State} (h : StateInv s) {x : Scan} (hx : ScanInv (s.withScan x)) :
    StateInv (s.withScan x) := by
  obtain ⟨hcfg, hbw, hbr, hfe, hfd, -⟩ := h
  exact ⟨hcfg, hbw, hbr, hfe, hfd, hx⟩

/-- Completing a record keeps the invariant (R29, R208). -/
theorem StateInv.of_finishRecord {s t : State} {a b : Byte} {rsv : Bool} {m : Mask} {k : Nat} (hinv : StateInv s)
    (hm : m.length = s.cfg.totalPixels) (hk : s.fd.pos + 3 + k ≤ s.fd.stream.length)
    (h : finishRecord a b rsv m k s = .next t) : StateInv t := by
  obtain ⟨hcfg, hbw, hbr, hfe, hfd, -⟩ := hinv
  obtain rfl := Host.Outcome.next.inj h
  exact ⟨hcfg, hbw, hbr, hfe, deliver_inv rsv hfd hm hk, scanInv_of_idle rfl⟩

/-- Both ways on from a run byte keep the invariant (R146, R208). -/
theorem StateInv.of_nextRun {s t : State} {a b : Byte} {rsv : Bool} {written : Mask} {k : Nat} (hinv : StateInv s)
    (hpos : s.fd.pos + 3 ≤ s.fd.stream.length) (hwritten : written.length ≤ s.cfg.totalPixels)
    (hk : k ≤ (payloadRest s.fd).length) (h : nextRun a b rsv written k s = .next t) : StateInv t := by
  obtain ⟨hlt, hmore, hnext⟩ | ⟨-, hnext⟩ := nextRun_cases a b rsv written k s <;> rw [hnext] at h
  · obtain rfl := Host.Outcome.next.inj h
    exact hinv.withScan ⟨hpos, hlt, hmore⟩
  · rw [payloadRest_length] at hk
    exact hinv.of_finishRecord (padMask_length hwritten) (by omega) h

/-- The invariant of a place inside a positional payload bounds the bytes consumed there (R168). -/
theorem pos_add_consumed_le {d : Decoder} {rd : Reader} (hpos : d.pos + 3 ≤ d.stream.length) (hinv : ReaderInv rd)
    (hbuf : rd.buf = payloadRest d) : d.pos + 3 + consumed rd ≤ d.stream.length := by
  have hle := consumed_le hinv
  rw [hbuf, payloadRest_length] at hle
  omega

theorem exists_nextRun_eq_next (a b : Byte) (rsv : Bool) (written : Mask) (k : Nat) (s : State) :
    ∃ t, nextRun a b rsv written k s = .next t := by
  obtain ⟨-, -, h⟩ | ⟨-, h⟩ := nextRun_cases a b rsv written k s
  · exact ⟨_, h⟩
  · exact ⟨_, h⟩

/-- A step from here has a next state, and that state meets the invariant. -/
def StepsToInv (s : State) : Prop := ∃ t, step s = .next t ∧ StateInv t

theorem stepsToInv_of_recordHead {s : State} (hinv : StateInv s) (h : s.scan = .recordHead) : StepsToInv s := by
  obtain ⟨hshort, -⟩ | ⟨a, b, x, rest, hrec, hlen, -⟩ := decodeRecord_cases s.cfg s.fd
  · obtain ⟨hcfg, hbw, hbr, hfe, hfd, -⟩ := hinv
    exact ⟨_, step_recordHead_of_short h hshort, hcfg, hbw, hbr, hfe, hfd, scanInv_of_idle rfl⟩
  · have hpos : s.fd.pos + 3 ≤ s.fd.stream.length := by omega
    exact ⟨_, step_recordHead h (by omega) hrec, hinv.withScan hpos⟩

theorem stepsToInv_of_headerByte {s : State} {a b : Byte} (hinv : StateInv s) (h : s.scan = .headerByte a b) :
    StepsToInv s := by
  have hpos := hinv.scan
  simp only [ScanInv, h] at hpos
  have hstep := step_headerByte h (List.drop_eq_getElem_cons (by omega))
  split at hstep
  · exact ⟨_, hstep, hinv.withScan ⟨hpos, loadReader_inv _, rfl⟩⟩
  · obtain ⟨t, ht⟩ := exists_nextRun_eq_next _ _ _ _ _ _
    exact ⟨t, hstep.trans ht, hinv.of_nextRun hpos (Nat.zero_le _) (Nat.zero_le _) ht⟩

theorem stepsToInv_of_runs {s : State} {a b : Byte} {rsv : Bool} {written : Mask} {k : Nat} (hinv : StateInv s)
    (h : s.scan = .runs a b rsv written k) : StepsToInv s := by
  have hscan := hinv.scan
  simp only [ScanInv, h] at hscan
  obtain ⟨hpos, hlt, hk⟩ := hscan
  obtain ⟨t, ht⟩ := exists_nextRun_eq_next _ _ _ _ _ _
  exact ⟨t, (step_runs h (List.drop_eq_getElem_cons hk)).trans ht, hinv.of_nextRun hpos (fillRun_le _ _ hlt.le) hk ht⟩

theorem stepsToInv_of_countField {s : State} {a b : Byte} {rsv : Bool} {rd : Reader} (hinv : StateInv s)
    (h : s.scan = .countField a b rsv rd) : StepsToInv s := by
  have hscan := hinv.scan
  simp only [ScanInv, h] at hscan
  obtain ⟨hpos, hrd, hbuf⟩ := hscan
  obtain ⟨-, hnone⟩ | ⟨-, rd', hsome, hrd', hbuf', -⟩ := readField_cases (n := indexBits s.cfg) hrd
  · exact ⟨_, step_countField_of_none h hrd hnone,
      hinv.of_finishRecord (blankMask_length _) (pos_add_consumed_le hpos hrd hbuf) rfl⟩
  · exact ⟨_, step_countField_of_some h hrd hsome,
      hinv.withScan ⟨hpos, hrd', hbuf'.trans hbuf, blankMask_length _⟩⟩

theorem stepsToInv_of_indexFields {s : State} {a b : Byte} {rsv : Bool} {rd : Reader} {left : Nat} {mask : Mask}
    (hinv : StateInv s) (h : s.scan = .indexFields a b rsv rd left mask) : StepsToInv s := by
  have hscan := hinv.scan
  simp only [ScanInv, h] at hscan
  obtain ⟨hpos, hrd, hbuf, hmask⟩ := hscan
  have hfinish (hend : left = 0 ∨ readField rd (indexBits s.cfg) = none) : StepsToInv s :=
    ⟨_, step_indexFields_of_end h hrd hend, hinv.of_finishRecord hmask (pos_add_consumed_le hpos hrd hbuf) rfl⟩
  cases left with
  | zero => exact hfinish (.inl rfl)
  | succ left =>
    obtain ⟨-, hnone⟩ | ⟨-, rd', hsome, hrd', hbuf', -⟩ := readField_cases (n := indexBits s.cfg) hrd
    · exact hfinish (.inr hnone)
    · exact ⟨_, step_indexFields_of_some h hrd hsome,
        hinv.withScan ⟨hpos, hrd', hbuf'.trans hbuf, (setIndex_length _ _ _).trans hmask⟩⟩

/-- A step inside an element-wise FD.STEP has a next state, which meets the invariant, at every place (log 8). -/
theorem stepsToInv_of_walking {s : State} (hinv : StateInv s) (hwalk : s.scan ≠ .idle) : StepsToInv s := by
  cases h : s.scan with
  | idle => exact absurd h hwalk
  | recordHead => exact stepsToInv_of_recordHead hinv h
  | headerByte => exact stepsToInv_of_headerByte hinv h
  | runs => exact stepsToInv_of_runs hinv h
  | countField => exact stepsToInv_of_countField hinv h
  | indexFields => exact stepsToInv_of_indexFields hinv h

/-- Settles O56. -/
theorem elementStepsProceed : Obligations.ElementStepsProceed := by
  intro s hinv hwalk
  obtain ⟨t, ht, -⟩ := stepsToInv_of_walking hinv hwalk
  exact ⟨t, ht⟩

/-- Settles O59: a step runs an operation off the port, or goes on in the record under way. -/
theorem stepKeepsInvariant : Obligations.StepKeepsInvariant := by
  intro s t hinv h
  by_cases hidle : s.scan = .idle
  · obtain ⟨hrec, -⟩ | ⟨i, rest, hdec, hexec⟩ := step_cases h
    · exact nomatch hidle.symm.trans hrec
    · rw [fetchPlace_idle hidle] at hdec
      obtain ⟨-, hi⟩ := encodeOfDecode _ _ _ _ hdec
      rw [afterFetch_idle s rest hidle] at hexec
      obtain ⟨hcfg, hbw, hbr, hfe, hfd, -⟩ := hinv
      exact exec_operation_stateInv (s := s.withPort rest) hi hidle ⟨hcfg, hbw, hbr, hfe, hfd, scanInv_of_idle hidle⟩
        hexec
  · obtain ⟨t', ht', hinv'⟩ := stepsToInv_of_walking hinv hidle
    obtain rfl := Host.Outcome.next.inj (h.symm.trans ht')
    exact hinv'

/-- A block exists for the legal configurations, as a block just reset (R7). -/
theorem instantiate_eq_some {c : Config} {s : State} (h : State.instantiate c = some s) :
    c.legal ∧ s = State.ofConfig c := by
  unfold State.instantiate at h
  split at h
  · exact ⟨‹_›, (Option.some.inj h).symm⟩
  · cases h

/-- Settles O60, for the blocks that exist and for the block after reset, whose configuration is legal. -/
theorem resetMeetsInvariant : Obligations.ResetMeetsInvariant := by
  refine ⟨fun c s h => ?_, stateInv_ofConfig config_block_legal⟩
  obtain ⟨hlegal, rfl⟩ := instantiate_eq_some h
  exact stateInv_ofConfig hlegal

end Sys2Proof.Machine

/-! Proofs: the configuration and the state after reset (00_scope.md R6, R7; 10_state.md R38; 70_reset_and_hazards.md
R252). -/

namespace Sys2Proof.Machine

open Sys2Proof

/-- Settles O1: the search for `clog2` finds the ceiling of the logarithm. -/
theorem clog2IsLeastExponent : Obligations.Clog2IsLeastExponent := by
  refine ⟨fun n _ => ?_, fun _ => ⟨rfl, rfl⟩⟩
  rw [clog2_eq_clog]
  exact ⟨Nat.le_pow_clog Nat.one_lt_two n, fun _ => Nat.clog_le_of_le_pow⟩

/-- Settles O2, by the range of INDEX_BITS. -/
theorem illegalConfigurationIsRefused : Obligations.IllegalConfigurationIsRefused := by
  intro c
  exact ⟨fun hlegal => ⟨if_pos hlegal, widthOk_indexBits hlegal⟩, fun hillegal => if_neg hillegal⟩

/-- Settles O3: RESET and the initialising operation of a unit leave the unit in the same state. -/
theorem resetRestoresEveryUnit : Obligations.ResetRestoresEveryUnit := by
  refine ⟨fun s => ⟨_, rfl, rfl, rfl, rfl, rfl, rfl, rfl⟩, fun c s t hnew hreset => ?_, fun s t t' b hreset => ?_,
    rfl, rfl, rfl, rfl⟩
  · obtain ⟨-, rfl⟩ := instantiate_eq_some hnew
    obtain rfl := Host.Outcome.next.inj hreset
    exact ⟨rfl, rfl, rfl, rfl⟩
  · obtain rfl := Host.Outcome.next.inj hreset
    refine ⟨fun h => ?_, fun h => ?_, fun h => ?_, fun h => ?_⟩ <;> obtain rfl := Host.Outcome.next.inj h <;> rfl

/-- Settles O4: every operation answers a next state in every state, and the reset state decides the results. -/
theorem firstOperationAfterReset : Obligations.FirstOperationAfterReset := by
  intro c n ac px hlegal h1 h32 hac hpx
  have hw : widthOk (indexBits c) := widthOk_indexBits hlegal
  have hprev : xorMask px (State.ofConfig c).fe.prev = px := by
    show xorMask px (blankMask c.totalPixels) = px
    rw [← hpx, xorMask_blank]
  refine ⟨fun i hi => ?_, exec_bwGetBytes_of_not_err rfl, exec_bwFlush_of_not_err rfl,
    exec_brRead_of_exhausted ⟨h1, h32⟩ h1, rfl, rfl, exec_fdStep_of_short (Nat.zero_lt_succ 2), rfl, rfl, ?_⟩
  · obtain ⟨t, ht, -⟩ := exists_effect_of_command hi (State.ofConfig c)
    exact ⟨t, ht⟩
  · obtain ⟨hsel, -⟩ | ⟨b, hb, -, hsel⟩ := selectPayload_cases px (indexBits c)
    · exact ⟨_, _, exec_feEncodeFrame_of_accepted hac hpx (by rw [hprev]; exact hsel), .inl (exec_rleeEncode px _)⟩
    · exact ⟨_, _, exec_feEncodeFrame_of_accepted hac hpx (by rw [hprev]; exact hsel),
        .inr (exec_poseEncode_of_some hw hb _)⟩

end Sys2Proof.Machine
